-- ==== Sys2Proof/Word.lean ====
section
/-! DEFINITION. The machine word of the block and its integer readings (00_scope.md R8, R9; 10_state.md R16). -/

namespace Sys2Proof

/-- A MachineWord: 32 bits, bit 31 the most significant (00_scope.md R8; 10_state.md R16). -/
abbrev Word := BitVec 32

/-- A general-register index, 0 to 31: every value of a 5-bit field is one (10_state.md R21). -/
abbrev Reg := Fin 32

/-- `uint(w)`, the unsigned magnitude of a word (00_scope.md R9). -/
abbrev uint (w : Word) : Nat := w.toNat

/-- `sint(w)`, the two's-complement value of a word (00_scope.md R9). -/
abbrev sint (w : Word) : Int := w.toInt

/-- `word(n)`, the word whose `uint` is `n mod 2^32` (00_scope.md R9). -/
abbrev word (n : Int) : Word := BitVec.ofInt 32 n

end Sys2Proof
end

