-- ==== Sys2Proof/Config.lean ====
section
/-! DEFINITION. The block's open parameters and the host's defaults (00_scope.md R6, R7).
They are fixed for the block, so no step writes them; a machine is one choice of a `Config`, and every
statement about the machine is for every choice. -/

namespace Sys2Proof

/-- The three parameters the spec leaves open (00_scope.md R6, R7; 92_eei_decisions.md D2 to D4). -/
structure Config where
  /-- `SENTINEL`, the PC value that halts the block (10_state.md R29). -/
  sentinel : Word
  /-- `STACK_TOP`, the launch value of register 30 (70_reset_and_hazards.md R122). -/
  stackTop : Word
  /-- `OUTPUT_PORT`, reserved for the host and ordinary memory inside the block (20_memory.md R44). -/
  outputPort : Word
  deriving DecidableEq, Repr

/-- The values 00_scope.md R7 suggests for running the examples of 95_test_vectors.md.
PRESUMED (general knowledge, as the spec marks them; log entry 2); unsafe for a claim that leans on a value. -/
def Config.suggested : Config :=
  { sentinel := 0x8123456C, stackTop := 0x01000000, outputPort := 0xFFFF000C }

/-- The host's default for the launch input `input1` (70_reset_and_hazards.md R128). -/
def defaultInput1 : Int := 1

/-- The host's default for the launch input `input2` (70_reset_and_hazards.md R128). -/
def defaultInput2 : Int := 2

/-- The longest program a launch accepts, in words (70_reset_and_hazards.md R125). -/
def maxProgramWords : Nat := 2 ^ 30

end Sys2Proof
end

