-- ==== Sys2Proof/Machine/State.lean ====
section
/-! DEFINITION. The state of the block as plain data (10_state.md R16 to R33), the fault kinds (60_exceptions.md R106),
the refusals, and the state after reset (70_reset_and_hazards.md R121 to R126). -/

namespace Sys2Proof.Machine

/-- The fault kinds of 60_exceptions.md R106, each with the value it records.
A fault is the spec's own terminal transition, taken as a next state whose run status holds the kind (log entry 1):
no step of this model answers `Host.Outcome.fault`. -/
inductive Fault where
  /-- Code 1, raised by the variant `Unknown` (46_unknown.md R105), records the word. Safe: the spec's own fault. -/
  | unknownInstruction (w : Word)
  /-- Code 2, raised by `Div`, `DivU`, `Mfhi`, `Mflo`, `Slt`, `Sltu`, `Beq`, `Bne` (42_multiply_divide.md,
  43_compare_branch.md), records the word. Safe: the spec's own fault. -/
  | unsupportedInstruction (w : Word)
  /-- Code 3, raised by the fetch, the `Lis` data word and `Lw` at an address with no entry (40_execution_cycle.md R72,
  44_load_store.md R96, R97), records the address. Unsafe only where the spec's decision D10 is (log entry 12). -/
  | uninitializedMemoryRead (a : Nat)
  /-- Code 4, raised by `Lw` and `Sw` when the effective address is outside 0 to 2^32-1 (44_load_store.md R95), records
  the integer. Unsafe as the spec's decision D7 is (log entry 9). -/
  | invalidAddress (ea : Int)
  /-- Code 5, raised by the fetch at a PC that is not a multiple of 4 (40_execution_cycle.md R71), records the PC.
  Unsafe as the spec's decision D9 is (log entry 11). -/
  | misalignedFetch (pc : Word)
  deriving DecidableEq, Repr

/-- Why an input is turned away. -/
inductive Refusal where
  /-- An instruction whose arm has no meaning yet, by its mnemonic; no arm of `exec` uses it. Safe. -/
  | notModelled (mnemonic : String)
  /-- A launch whose program has more than 2^30 words (70_reset_and_hazards.md R125). Safe: the spec refuses it. -/
  | programTooLong
  /-- A program text with an item that is not 32 characters of `0` and `1` (70_reset_and_hazards.md R129).
  Safe: the spec refuses it. -/
  | malformedProgramText
  deriving DecidableEq, Repr

/-- The run status (10_state.md R31), which is also the outcome of the last step (40_execution_cycle.md R67). -/
inductive Status where
  /-- `Running`: the outcome `Continue`. -/
  | running
  /-- `Halted`: terminal, reached at a PC equal to `SENTINEL` (40_execution_cycle.md R70). -/
  | halted
  /-- `Faulted(kind)`: terminal (60_exceptions.md R107). -/
  | faulted (k : Fault)
  deriving DecidableEq, Repr

/-- Memory: the entries, each an address and the word stored under it (10_state.md R30; 20_memory.md R37).
An unlisted address has no entry, and reading it faults (20_memory.md R38); there are no bytes underneath (R39). -/
abbrev Memory := List (Nat × Word)

/-- The canonical form: addresses strictly rising, every address below 2^32 (20_memory.md R36, R37). -/
abbrev Memory.wf (m : Memory) : Prop :=
  m.Pairwise (fun p q => p.1 < q.1) ∧ ∀ p ∈ m, p.1 < 2 ^ 32

/-- The state of the block. -/
structure State where
  /-- The program counter (10_state.md R26). -/
  pc : Word
  /-- `HI`, the upper half of the last product (10_state.md R25). -/
  hi : Word
  /-- `LO`, the lower half of the last product (10_state.md R25). -/
  lo : Word
  /-- The general registers `x[0]` to `x[31]`, none hardwired (10_state.md R21, R22). -/
  regs : Vector Word 32
  /-- The one address space, code and data (10_state.md R30; 20_memory.md R35). -/
  mem : Memory
  /-- The run status (10_state.md R31). -/
  status : Status
  /-- The block's parameters, which no step writes (00_scope.md R6; log entry 2). -/
  cfg : Config
  deriving DecidableEq, Repr

/-- The machine right after `LAUNCH` with the host's default inputs and no program (70_reset_and_hazards.md R121 to
R126, R128), for the suggested parameters (log entries 2 and 3). -/
def State.reset : State :=
  { pc := 0
    hi := 0
    lo := 0
    regs := ((((Vector.replicate 32 (0 : Word)).set 1 (word defaultInput1)).set 2 (word defaultInput2)).set 30
      Config.suggested.stackTop).set 31 Config.suggested.sentinel
    mem := []
    status := .running
    cfg := Config.suggested }

end Sys2Proof.Machine
end

