-- ==== Sys2Proof/Machine/Flags.lean ====
section
/-! DEFINITION. The results of the arithmetic units. The block has no flags: no unit has a carry, borrow or overflow
output (10_state.md R32; 41_alu.md R78; 42_multiply_divide.md R82), so a result is all there is to compute. -/

namespace Sys2Proof.Machine

/-- The adder: `word(uint(a) + uint(b))` (41_alu.md R79). -/
def aluAdd (a b : Word) : Word := word ((uint a : Int) + uint b)

/-- The subtractor: `word(uint(a) - uint(b))` (41_alu.md R80). -/
def aluSub (a b : Word) : Word := word ((uint a : Int) - uint b)

/-- The 64-bit two's-complement pattern of the signed product, as a number (42_multiply_divide.md R83). -/
def signedProduct (a b : Word) : Nat := ((sint a * sint b) % 2 ^ 64).toNat

/-- The unsigned product (42_multiply_divide.md R84). -/
def unsignedProduct (a b : Word) : Nat := uint a * uint b

/-- `word(p div 2^32)`, the half that goes to `HI` (42_multiply_divide.md R81, R83, R84). -/
def productHi (p : Nat) : Word := word ((p / 2 ^ 32 : Nat) : Int)

/-- `word(p mod 2^32)`, the half that goes to `LO` (42_multiply_divide.md R81, R83, R84). -/
def productLo (p : Nat) : Word := word ((p % 2 ^ 32 : Nat) : Int)

end Sys2Proof.Machine
end

