-- ==== Sys2Proof/Syntax.lean ====
section
/-! DEFINITION. The instructions of the block: one constructor per variant of 30_encoding.md R57. -/

namespace Sys2Proof

/-- A decoded instruction: its variant and the fields its rule uses (30_encoding.md R53, R57).
Register operands are indices 0 to 31; an immediate is the 16-bit field, not yet extended (30_encoding.md R56). -/
inductive Instr where
  /-- `add $d, $s, $t` (41_alu.md R79). -/
  | add (d s t : Reg)
  /-- `sub $d, $s, $t` (41_alu.md R80). -/
  | sub (d s t : Reg)
  /-- `mult $s, $t` (42_multiply_divide.md R83). -/
  | mult (s t : Reg)
  /-- `multu $s, $t` (42_multiply_divide.md R84). -/
  | multu (s t : Reg)
  /-- `div $s, $t` (42_multiply_divide.md R85). -/
  | div (s t : Reg)
  /-- `divu $s, $t` (42_multiply_divide.md R86). -/
  | divu (s t : Reg)
  /-- `mfhi $d` (42_multiply_divide.md R87). -/
  | mfhi (d : Reg)
  /-- `mflo $d` (42_multiply_divide.md R88). -/
  | mflo (d : Reg)
  /-- `lis $d`, followed in memory by its data word (30_encoding.md R63; 44_load_store.md R96). -/
  | lis (d : Reg)
  /-- `lw $t, i($s)` (44_load_store.md R97). -/
  | lw (t s : Reg) (i : BitVec 16)
  /-- `sw $t, i($s)` (44_load_store.md R98). -/
  | sw (t s : Reg) (i : BitVec 16)
  /-- `slt $d, $s, $t` (43_compare_branch.md R90). -/
  | slt (d s t : Reg)
  /-- `sltu $d, $s, $t` (43_compare_branch.md R91). -/
  | sltu (d s t : Reg)
  /-- `beq $s, $t, i` (43_compare_branch.md R92). -/
  | beq (s t : Reg) (i : BitVec 16)
  /-- `bne $s, $t, i` (43_compare_branch.md R93). -/
  | bne (s t : Reg) (i : BitVec 16)
  /-- `jr $s` (45_jump.md R103). -/
  | jr (s : Reg)
  /-- `jalr $s` (45_jump.md R104). -/
  | jalr (s : Reg)
  /-- `Unknown`, the catch-all, with the word that matched no row (46_unknown.md R105). -/
  | unknown (w : Word)
  deriving DecidableEq, Repr

end Sys2Proof
end

