-- ==== Sys2Proof/Decode.lean ====
section
/-! DEFINITION. The instruction decoder (30_encoding.md R53, R58 to R60) and, after it, the encoder written from the
patterns of the same table (R54, R55, R60). The bit patterns are the spec's decision D1 (log entry 5). -/

namespace Sys2Proof

/-! ### Fields (30_encoding.md R53) -/

/-- The opcode field `op = w[31:26]`. -/
def fieldOp (w : Word) : BitVec 6 := w.extractLsb' 26 6

/-- The register field `s = w[25:21]`. -/
def fieldS (w : Word) : Reg := (w.extractLsb' 21 5).toFin

/-- The register field `t = w[20:16]`. -/
def fieldT (w : Word) : Reg := (w.extractLsb' 16 5).toFin

/-- The register field `d = w[15:11]`. -/
def fieldD (w : Word) : Reg := (w.extractLsb' 11 5).toFin

/-- The unused field `sa = w[10:6]`, zero in every recognized register-format word. -/
def fieldSa (w : Word) : BitVec 5 := w.extractLsb' 6 5

/-- The function code `fn = w[5:0]`. -/
def fieldFn (w : Word) : BitVec 6 := w.extractLsb' 0 6

/-- The immediate field `i = w[15:0]`. -/
def fieldI (w : Word) : BitVec 16 := w.extractLsb' 0 16

/-! ### Decoder -/

/-- One row of the mask/pattern table of 30_encoding.md R60. -/
structure TableRow where
  /-- A 1 at every fixed bit. -/
  mask : Word
  /-- The values of the fixed bits. -/
  pattern : Word
  /-- The variant, with its operands taken from the fields of the word. -/
  build : Word → Instr

/-- `(w AND mask_V) = match_V` (30_encoding.md R58). -/
def TableRow.accepts (r : TableRow) (w : Word) : Bool := w &&& r.mask == r.pattern

/-- Rows 1 to 17 of the table of 30_encoding.md R60, in precedence order. -/
def decodeTable : List TableRow :=
  [ ⟨0xFC0007FF, 0x00000020, fun w => .add (fieldD w) (fieldS w) (fieldT w)⟩,
    ⟨0xFC0007FF, 0x00000022, fun w => .sub (fieldD w) (fieldS w) (fieldT w)⟩,
    ⟨0xFC00FFFF, 0x00000018, fun w => .mult (fieldS w) (fieldT w)⟩,
    ⟨0xFC00FFFF, 0x00000019, fun w => .multu (fieldS w) (fieldT w)⟩,
    ⟨0xFC00FFFF, 0x0000001A, fun w => .div (fieldS w) (fieldT w)⟩,
    ⟨0xFC00FFFF, 0x0000001B, fun w => .divu (fieldS w) (fieldT w)⟩,
    ⟨0xFFFF07FF, 0x00000010, fun w => .mfhi (fieldD w)⟩,
    ⟨0xFFFF07FF, 0x00000012, fun w => .mflo (fieldD w)⟩,
    ⟨0xFFFF07FF, 0x00000014, fun w => .lis (fieldD w)⟩ ] ++
  [ ⟨0xFC000000, 0x8C000000, fun w => .lw (fieldT w) (fieldS w) (fieldI w)⟩,
    ⟨0xFC000000, 0xAC000000, fun w => .sw (fieldT w) (fieldS w) (fieldI w)⟩,
    ⟨0xFC0007FF, 0x0000002A, fun w => .slt (fieldD w) (fieldS w) (fieldT w)⟩,
    ⟨0xFC0007FF, 0x0000002B, fun w => .sltu (fieldD w) (fieldS w) (fieldT w)⟩,
    ⟨0xFC000000, 0x10000000, fun w => .beq (fieldS w) (fieldT w) (fieldI w)⟩,
    ⟨0xFC000000, 0x14000000, fun w => .bne (fieldS w) (fieldT w) (fieldI w)⟩,
    ⟨0xFC1FFFFF, 0x00000008, fun w => .jr (fieldS w)⟩,
    ⟨0xFC1FFFFF, 0x00000009, fun w => .jalr (fieldS w)⟩ ]

/-- The first row that accepts the word, read from the top (30_encoding.md R59). -/
def firstRow (w : Word) : Option TableRow := decodeTable.find? (fun r => r.accepts w)

/-- The decoder: total, reading only the word; a word no row accepts is rejected by name, as the variant
`unknown` (30_encoding.md R58, R59; row 18 of R60; 40_execution_cycle.md R73). -/
def decode (w : Word) : Instr :=
  match firstRow w with
  | some r => r.build w
  | none => .unknown w

/-! ### Which words are `Unknown`, said by fields (30_encoding.md R62) -/

/-- The function codes of an opcode-0 word that uses `s`, `t` and `d` (30_encoding.md R60 rows 1, 2, 12, 13). -/
def threeRegisterFunctions : List (BitVec 6) := [0x20, 0x22, 0x2A, 0x2B]

/-- Those that use `s` and `t` only (rows 3 to 6). -/
def sourcePairFunctions : List (BitVec 6) := [0x18, 0x19, 0x1A, 0x1B]

/-- Those that use `d` only (rows 7 to 9). -/
def destinationFunctions : List (BitVec 6) := [0x10, 0x12, 0x14]

/-- Those that use `s` only (rows 16, 17). -/
def jumpFunctions : List (BitVec 6) := [0x08, 0x09]

/-- The opcodes of the immediate-format variants (rows 10, 11, 14, 15). -/
def immediateOpcodes : List (BitVec 6) := [0b100011, 0b101011, 0b000100, 0b000101]

/-- A word is recognized when its opcode is an immediate-format one, or its opcode is 0, its function code is listed
and every field its variant does not use is zero (30_encoding.md R62). Written from the prose of R62, apart
from `decodeTable`. -/
def recognizedByFields (w : Word) : Bool :=
  immediateOpcodes.contains (fieldOp w) ||
    (fieldOp w == 0 && fieldSa w == 0 &&
      (threeRegisterFunctions.contains (fieldFn w) ||
        (sourcePairFunctions.contains (fieldFn w) && fieldD w == 0) ||
        (destinationFunctions.contains (fieldFn w) && fieldS w == 0 && fieldT w == 0) ||
        (jumpFunctions.contains (fieldFn w) && fieldT w == 0 && fieldD w == 0)))

/-! ### Encoder -/

/-- A register-format word, `op = 000000` and `sa = 00000` (30_encoding.md R54). -/
def encodeR (s t d : Reg) (fn : BitVec 6) : Word :=
  0#6 ++ BitVec.ofFin (w := 5) s ++ BitVec.ofFin (w := 5) t ++ BitVec.ofFin (w := 5) d ++ 0#5 ++ fn

/-- An immediate-format word (30_encoding.md R55). -/
def encodeI (op : BitVec 6) (s t : Reg) (i : BitVec 16) : Word :=
  op ++ BitVec.ofFin (w := 5) s ++ BitVec.ofFin (w := 5) t ++ i

/-- The encoder, from the patterns of 30_encoding.md R60; the fields a variant does not use are zero. -/
def encode : Instr → Word
  | .add d s t => encodeR s t d 0b100000
  | .sub d s t => encodeR s t d 0b100010
  | .mult s t => encodeR s t 0 0b011000
  | .multu s t => encodeR s t 0 0b011001
  | .div s t => encodeR s t 0 0b011010
  | .divu s t => encodeR s t 0 0b011011
  | .mfhi d => encodeR 0 0 d 0b010000
  | .mflo d => encodeR 0 0 d 0b010010
  | .lis d => encodeR 0 0 d 0b010100
  | .lw t s i => encodeI 0b100011 s t i
  | .sw t s i => encodeI 0b101011 s t i
  | .slt d s t => encodeR s t d 0b101010
  | .sltu d s t => encodeR s t d 0b101011
  | .beq s t i => encodeI 0b000100 s t i
  | .bne s t i => encodeI 0b000101 s t i
  | .jr s => encodeR s 0 0 0b001000
  | .jalr s => encodeR s 0 0 0b001001
  | .unknown w => w

/-- The length of an instruction in bytes, known from its variant: `Lis` is followed by its data word
(30_encoding.md R63). -/
def instrLength : Instr → Nat
  | .lis _ => 8
  | _ => 4

/-! ### The opcode table's words -/

/-- The instruction the decoder reads from an instruction whose `nbits` lowest bits are those of `w`, every bit above
being zero. Memory is held in whole words, so the first word is the low 32 bits, as it is stored
(20_memory.md R39), and the decoder looks at that word only (30_encoding.md R63). The decoder refuses nothing: a
word in no row is the instruction `unknown`. -/
def decodeTableWord (nbits w : Nat) : Option Instr :=
  some (decode (BitVec.ofNat 32 (w % 2 ^ nbits)))

end Sys2Proof
end

