-- ==== Sys2Proof/Machine/Ops.lean ====
section
/-! DEFINITION. The named operations over registers and memory (00_scope.md R11, R12), the frame every variant's rule
runs in (40_execution_cycle.md R68, R74, R76), and taking a fault (00_scope.md R13; 60_exceptions.md R108).
There is no return from a fault (60_exceptions.md R111), so none stands beside it. -/

namespace Sys2Proof.Machine

/-! ### Registers -/

/-- `x[i]`, a general register read (00_scope.md R11). -/
def State.reg (S : State) (r : Reg) : Word := S.regs[r]

/-- `x[i] <- v` (00_scope.md R11); register 0 is written like any other (10_state.md R22). -/
def State.setReg (S : State) (r : Reg) (v : Word) : State := { S with regs := S.regs.set r v }

/-- `pc <- v`. -/
def State.setPc (S : State) (v : Word) : State := { S with pc := v }

/-- `HI <- h; LO <- l` (10_state.md R25). -/
def State.setHiLo (S : State) (h l : Word) : State := { S with hi := h, lo := l }

/-- The memory replaced. -/
def State.setMem (S : State) (m : Memory) : State := { S with mem := m }

/-- The run status replaced (10_state.md R31). -/
def State.setStatus (S : State) (st : Status) : State := { S with status := st }

/-- `word(uint(pc) + 4)`, modulo 2^32 (10_state.md R28; 40_execution_cycle.md R74). -/
def nextPc (pc : Word) : Word := word ((uint pc : Int) + 4)

/-! ### Memory (20_memory.md R37, R38) -/

/-- The entry under an address, if there is one. -/
def Memory.read? : Memory → Nat → Option Word
  | [], _ => none
  | (b, u) :: m, a => if b = a then some u else Memory.read? m a

/-- Create or overwrite the entry under one address and no other, keeping the addresses rising. -/
def Memory.write : Memory → Nat → Word → Memory
  | [], a, v => [(a, v)]
  | (b, u) :: m, a, v =>
    if a < b then (a, v) :: (b, u) :: m
    else if a = b then (a, v) :: m
    else (b, u) :: Memory.write m a v

/-- The entry under an address of the state's memory. -/
def State.entry (S : State) (a : Nat) : Option Word := S.mem.read? a

/-- `MemRead(a, 4)`: the word under `a`, or the fault `UninitializedMemoryRead(a)` (00_scope.md R12). -/
def memRead (S : State) (a : Nat) : Except Fault Word :=
  match S.entry a with
  | some v => .ok v
  | none => .error (.uninitializedMemoryRead a)

/-- `MemWrite(a, 4, v)` (00_scope.md R12). -/
def memWrite (S : State) (a : Nat) (v : Word) : State := S.setMem (S.mem.write a v)

/-! ### Faults and the frame -/

/-- The code of a fault kind (60_exceptions.md R106; no rule reads it). -/
def faultCode : Fault → Nat
  | .unknownInstruction _ => 1
  | .unsupportedInstruction _ => 2
  | .uninitializedMemoryRead _ => 3
  | .invalidAddress _ => 4
  | .misalignedFetch _ => 5

/-- `raise K(info)`, the one way a fault is taken: the state of before the step with the run status `Faulted(kind)`
and nothing else changed (00_scope.md R13; 60_exceptions.md R108, R110). -/
def takeFault (k : Fault) (S : State) : State := S.setStatus (.faulted k)

/-- The halt of 40_execution_cycle.md R70: the run status alone changes. -/
def takeHalt (S : State) : State := S.setStatus .halted

/-- A variant's rule in its frame: it sees `pc` advanced by 4 (40_execution_cycle.md R74); if it completes, its writes
are kept and the run status is left (R76); if it raises, none of the step's writes is kept (00_scope.md R13). -/
def inFrame (S : State) (rule : State → Except Fault State) : Host.Outcome State Fault Refusal :=
  match rule (S.setPc (nextPc S.pc)) with
  | .ok T => .next T
  | .error k => .next (takeFault k S)

/-- The fault of a recognized variant that the block does not execute, with its word recorded
(60_exceptions.md R106). The word is the instruction's own encoding, which determines it (log entry 15). -/
def unsupported (i : Instr) (S : State) : Host.Outcome State Fault Refusal :=
  inFrame S fun _ => .error (.unsupportedInstruction (encode i))

/-! ### The start of a step (40_execution_cycle.md R69 to R72) -/

/-- What the start of a step finds: the step is over, or a word to execute. -/
inductive StepStart where
  /-- The step ends in this state without executing anything. -/
  | done (T : State)
  /-- The fetched word. -/
  | execute (w : Word)
  deriving DecidableEq, Repr

/-- The PC is a multiple of 4 (20_memory.md R41). -/
def pcAligned (pc : Word) : Bool := uint pc % 4 == 0

/-- The instruction fetch: the misaligned check, then the word under the PC (40_execution_cycle.md R71, R72;
the order is 60_exceptions.md R109). -/
def fetch (S : State) : Except Fault Word :=
  if pcAligned S.pc then memRead S (uint S.pc) else .error (.misalignedFetch S.pc)

/-- The frame of 40_execution_cycle.md R68 up to the decode: terminal states stay (R69), a PC equal to `SENTINEL` halts
before any other check (R70), then the fetch. -/
def startStep (S : State) : StepStart :=
  match S.status with
  | .halted => .done S
  | .faulted _ => .done S
  | .running =>
    if S.pc = S.cfg.sentinel then .done (takeHalt S)
    else
      match fetch S with
      | .ok w => .execute w
      | .error k => .done (takeFault k S)

/-- A PC at which a step fetches: the state's own where it is a multiple of 4 and not `SENTINEL`, else an address
that is both (only for `State.withFetchWord`; log entry 3). -/
def fetchablePc (S : State) : Word :=
  if pcAligned S.pc && S.pc != S.cfg.sentinel then S.pc
  else if S.cfg.sentinel = 0 then 4
  else 0

end Sys2Proof.Machine
end

