-- ==== Sys2Proof/Machine/Operands.lean ====
section
/-! DEFINITION. The operand forms: the immediate's readings, the effective address and the register roles
(00_scope.md R10; 30_encoding.md R56; 44_load_store.md R94, R95; 10_state.md R23). Register operands are plain reads of
`State.reg`; no other form exists (30_encoding.md R56). -/

namespace Sys2Proof.Machine

/-- `sext_32(v)` (00_scope.md R10). -/
def sext32 (v : BitVec 16) : Word := v.signExtend 32

/-- `zext_32(v)` (00_scope.md R10). -/
def zext32 (v : BitVec 16) : Word := v.zeroExtend 32

/-- `signed16(i) = sint(sext_32(i))`, the signed reading of an immediate (00_scope.md R10; 30_encoding.md R56). -/
def signed16 (i : BitVec 16) : Int := sint (sext32 i)

/-- `uint(zext_32(i))`, the unsigned reading of an immediate; no executed variant uses it (30_encoding.md R56). -/
def unsigned16 (i : BitVec 16) : Nat := uint (zext32 i)

/-- The effective address `signed16(i) + unsigned(x[s])`, a sum over the integers (44_load_store.md R94). -/
def effectiveAddress (S : State) (s : Reg) (i : BitVec 16) : Int := signed16 i + uint (S.reg s)

/-- An integer that is an address: 0 to 2^32-1 (20_memory.md R36). -/
abbrev addressInRange (ea : Int) : Prop := 0 ≤ ea ∧ ea < 2 ^ 32

/-- The memory key of a load or store, or the fault `InvalidAddress(ea)` (44_load_store.md R95). -/
def dataAddress (S : State) (s : Reg) (i : BitVec 16) : Except Fault Nat :=
  if addressInRange (effectiveAddress S s i) then .ok (effectiveAddress S s i).toNat
  else .error (.invalidAddress (effectiveAddress S s i))

/-- The conventional roles of registers 27 to 31 (10_state.md R23). -/
inductive RegRole where
  /-- Register 27. -/
  | heapPointer
  /-- Register 28, the semi-space or heap top. -/
  | heapTop
  /-- Register 29. -/
  | framePointer
  /-- Register 30. -/
  | stackPointer
  /-- Register 31. -/
  | returnAddress
  deriving DecidableEq, Repr

/-- The immutable role table (10_state.md R23). -/
def roleIndex : RegRole → Reg
  | .heapPointer => 27
  | .heapTop => 28
  | .framePointer => 29
  | .stackPointer => 30
  | .returnAddress => 31

end Sys2Proof.Machine
end

