-- ==== Sys2Proof/Machine/Alu.lean ====
section
/-! DEFINITION. The ALU instructions (41_alu.md). -/

namespace Sys2Proof.Machine

/-- `Add` (41_alu.md R79). -/
def execAdd (d s t : Reg) (S : State) : Host.Outcome State Fault Refusal :=
  inFrame S fun S => .ok (S.setReg d (aluAdd (S.reg s) (S.reg t)))

/-- `Sub` (41_alu.md R80). -/
def execSub (d s t : Reg) (S : State) : Host.Outcome State Fault Refusal :=
  inFrame S fun S => .ok (S.setReg d (aluSub (S.reg s) (S.reg t)))

end Sys2Proof.Machine
end

