-- ==== Sys2Proof/Machine/CompareBranch.lean ====
section
/-! DEFINITION. The compare and branch instructions (43_compare_branch.md), recognized and not executed: "a model must
not supply MIPS semantics for them". -/

namespace Sys2Proof.Machine

/-- `Slt` (43_compare_branch.md R90). -/
def execSlt (d s t : Reg) (S : State) : Host.Outcome State Fault Refusal := unsupported (.slt d s t) S

/-- `Sltu` (43_compare_branch.md R91). -/
def execSltu (d s t : Reg) (S : State) : Host.Outcome State Fault Refusal := unsupported (.sltu d s t) S

/-- `Beq` (43_compare_branch.md R92). -/
def execBeq (s t : Reg) (i : BitVec 16) (S : State) : Host.Outcome State Fault Refusal := unsupported (.beq s t i) S

/-- `Bne` (43_compare_branch.md R93). -/
def execBne (s t : Reg) (i : BitVec 16) (S : State) : Host.Outcome State Fault Refusal := unsupported (.bne s t i) S

end Sys2Proof.Machine
end

