-- ==== Sys2Proof/Machine/Jump.lean ====
section
/-! DEFINITION. The jump instructions (45_jump.md). A jump checks nothing; a bad target meets the next step's start
(R101). -/

namespace Sys2Proof.Machine

/-- `Jr` (45_jump.md R103). -/
def execJr (s : Reg) (S : State) : Host.Outcome State Fault Refusal :=
  inFrame S fun S => .ok (S.setPc (S.reg s))

/-- `Jalr` (45_jump.md R104): the target is read before the link is written (90_conflicts.md C5). -/
def execJalr (s : Reg) (S : State) : Host.Outcome State Fault Refusal :=
  inFrame S fun S =>
    let target := S.reg s
    .ok ((S.setReg (roleIndex .returnAddress) S.pc).setPc target)

end Sys2Proof.Machine
end

