-- ==== Sys2Proof/Machine/LoadStore.lean ====
section
/-! DEFINITION. The load and store instructions (44_load_store.md). -/

namespace Sys2Proof.Machine

/-- `Lis` (44_load_store.md R96): the word under the advanced PC, then 4 more. -/
def execLis (d : Reg) (S : State) : Host.Outcome State Fault Refusal :=
  inFrame S fun S => do
    let v ← memRead S (uint S.pc)
    .ok ((S.setReg d v).setPc (nextPc S.pc))

/-- `Lw` (44_load_store.md R97): the range check, then the read (60_exceptions.md R109). -/
def execLw (t s : Reg) (i : BitVec 16) (S : State) : Host.Outcome State Fault Refusal :=
  inFrame S fun S => do
    let a ← dataAddress S s i
    let v ← memRead S a
    .ok (S.setReg t v)

/-- `Sw` (44_load_store.md R98): the range check, then the write, which creates the entry if there is none. -/
def execSw (t s : Reg) (i : BitVec 16) (S : State) : Host.Outcome State Fault Refusal :=
  inFrame S fun S => do
    let a ← dataAddress S s i
    .ok (memWrite S a (S.reg t))

end Sys2Proof.Machine
end

