-- ==== Sys2Proof/Machine/MultiplyDivide.lean ====
section
/-! DEFINITION. The multiply and divide unit (42_multiply_divide.md): two variants execute, four raise
`UnsupportedInstruction`. -/

namespace Sys2Proof.Machine

/-- A product to `HI` and `LO` within the step (42_multiply_divide.md R81). -/
def writeProduct (p : Nat) (S : State) : State := S.setHiLo (productHi p) (productLo p)

/-- `Mult` (42_multiply_divide.md R83). -/
def execMult (s t : Reg) (S : State) : Host.Outcome State Fault Refusal :=
  inFrame S fun S => .ok (writeProduct (signedProduct (S.reg s) (S.reg t)) S)

/-- `MultU` (42_multiply_divide.md R84). -/
def execMultu (s t : Reg) (S : State) : Host.Outcome State Fault Refusal :=
  inFrame S fun S => .ok (writeProduct (unsignedProduct (S.reg s) (S.reg t)) S)

/-- `Div`, recognized and not executed (42_multiply_divide.md R85). -/
def execDiv (s t : Reg) (S : State) : Host.Outcome State Fault Refusal := unsupported (.div s t) S

/-- `DivU`, recognized and not executed (42_multiply_divide.md R86). -/
def execDivu (s t : Reg) (S : State) : Host.Outcome State Fault Refusal := unsupported (.divu s t) S

/-- `Mfhi`, recognized and not executed (42_multiply_divide.md R87). -/
def execMfhi (d : Reg) (S : State) : Host.Outcome State Fault Refusal := unsupported (.mfhi d) S

/-- `Mflo`, recognized and not executed (42_multiply_divide.md R88). -/
def execMflo (d : Reg) (S : State) : Host.Outcome State Fault Refusal := unsupported (.mflo d) S

end Sys2Proof.Machine
end

