-- ==== Sys2Proof/Machine/Unknown.lean ====
section
/-! DEFINITION. Unknown words (46_unknown.md). -/

namespace Sys2Proof.Machine

/-- `Unknown`: raises `UnknownInstruction(w)` (46_unknown.md R105). -/
def execUnknown (w : Word) (S : State) : Host.Outcome State Fault Refusal :=
  inFrame S fun _ => .error (.unknownInstruction w)

end Sys2Proof.Machine
end

