-- ==== Sys2Proof/Machine/Dispatch.lean ====
section
/-! DEFINITION. The dispatch of a decoded instruction to its rule (40_execution_cycle.md R75). `exec i S` is the step of
`i` from the state `S` whose PC is the instruction's own address; each meaning runs its rule in the frame. -/

namespace Sys2Proof.Machine

def exec (i : Instr) (s : State) : Host.Outcome State Fault Refusal :=
  match i with
  | .add d a b => Sys2Proof.Machine.execAdd d a b s
  | .sub d a b => Sys2Proof.Machine.execSub d a b s
  | .mult a b => Sys2Proof.Machine.execMult a b s
  | .multu a b => Sys2Proof.Machine.execMultu a b s
  | .div a b => Sys2Proof.Machine.execDiv a b s
  | .divu a b => Sys2Proof.Machine.execDivu a b s
  | .mfhi d => Sys2Proof.Machine.execMfhi d s
  | .mflo d => Sys2Proof.Machine.execMflo d s
  | .lis d => Sys2Proof.Machine.execLis d s
  | .lw t a imm => Sys2Proof.Machine.execLw t a imm s
  | .sw t a imm => Sys2Proof.Machine.execSw t a imm s
  | .slt d a b => Sys2Proof.Machine.execSlt d a b s
  | .sltu d a b => Sys2Proof.Machine.execSltu d a b s
  | .beq a b imm => Sys2Proof.Machine.execBeq a b imm s
  | .bne a b imm => Sys2Proof.Machine.execBne a b imm s
  | .jr a => Sys2Proof.Machine.execJr a s
  | .jalr a => Sys2Proof.Machine.execJalr a s
  | .unknown w => Sys2Proof.Machine.execUnknown w s

end Sys2Proof.Machine
end

