-- ==== Sys2Proof/Machine/Step.lean ====
section
/-! DEFINITION. One step of the block (40_execution_cycle.md R67, R68), and the placing of one instruction where the
next step fetches it. -/

namespace Sys2Proof.Machine

/-- `STEP` (40_execution_cycle.md R68): the start of the step, the decode, the variant's rule. -/
def step (S : State) : Host.Outcome State Fault Refusal :=
  match startStep S with
  | .done T => .next T
  | .execute w => exec (decode w) S

/-- `s` with an instruction stored where the next step fetches: its first word, the low 32 bits, under the PC, and for
`Lis` its data word, the next 32 bits, under the PC plus 4 (30_encoding.md R63). The run status is `Running`, and the PC
is left where it is when a fetch can be made there (log entry 3). -/
def State.withFetchWord (s : State) (nbits w : Nat) : State :=
  let bits := w % 2 ^ nbits
  let pc := fetchablePc s
  let first : Word := BitVec.ofNat 32 bits
  let placed := memWrite ((s.setPc pc).setStatus .running) (uint pc) first
  if instrLength (decode first) = 8 then
    memWrite placed (uint (nextPc pc)) (BitVec.ofNat 32 (bits / 2 ^ 32))
  else placed

end Sys2Proof.Machine
end

