-- ==== Sys2Proof/Machine/Codec.lean ====
section
/-! DEFINITION. The Word Codec: the bit-string form of a word (10_state.md R17 to R20). A string is a list of
characters (log entry 20). -/

namespace Sys2Proof.Machine

/-- A serialized value, its first character the most significant bit (00_scope.md R8). -/
abbrev BitString := List Char

/-- The character of one bit. -/
def bitChar (b : Bool) : Char := if b then '1' else '0'

/-- The `width` low bits of a number, most significant first. -/
def bitsOfNat : Nat → Nat → BitString
  | 0, _ => []
  | k + 1, n => bitChar (n / 2 ^ k % 2 == 1) :: bitsOfNat k n

/-- `encode(value, width)`: exactly `width` characters that spell `value mod 2^width` (10_state.md R19). -/
def encodeBits (value : Int) (width : Nat := 32) : BitString := bitsOfNat width (value % 2 ^ width).toNat

/-- The 32-character form of a word (10_state.md R34). -/
def encodeWord (w : Word) : BitString := encodeBits (uint w)

/-- Exactly 32 characters, each `0` or `1` (10_state.md R17, R20). -/
def isBitString32 (bits : BitString) : Bool := bits.length == 32 && bits.all fun c => c == '0' || c == '1'

/-- The number a string of `0` and `1` spells, most significant first. -/
def bitsValue (bits : BitString) : Nat := bits.foldl (fun n c => 2 * n + if c == '1' then 1 else 0) 0

/-- `decodeUnsigned(bits)` (10_state.md R17); no value for a malformed string (R20). -/
def decodeUnsigned (bits : BitString) : Option Nat := if isBitString32 bits then some (bitsValue bits) else none

/-- `decodeSigned(bits)` (10_state.md R18); no value for a malformed string (R20). -/
def decodeSigned (bits : BitString) : Option Int := (decodeUnsigned bits).map fun n => sint (word n)

end Sys2Proof.Machine
end

