-- ==== Sys2Proof/Machine/Loader.lean ====
section
/-! DEFINITION. The Program Loader: `LAUNCH`, the only reset (70_reset_and_hazards.md R121 to R126), and the program's
text form (R129). -/

namespace Sys2Proof.Machine

/-- The memory of a program placed from address `a` up, one word every 4 (70_reset_and_hazards.md R125). -/
def placeProgram : List Word → Nat → Memory
  | [], _ => []
  | w :: ws, a => (a, w) :: placeProgram ws (a + 4)

/-- The registers after a launch (70_reset_and_hazards.md R122, by the roles of 10_state.md R23). -/
def launchRegs (c : Config) (input1 input2 : Int) : Vector Word 32 :=
  ((((Vector.replicate 32 (0 : Word)).set 1 (word input1)).set 2 (word input2)).set (roleIndex .stackPointer)
    c.stackTop).set (roleIndex .returnAddress) c.sentinel

/-- The state a launch leaves for these parameters (70_reset_and_hazards.md R122 to R126). -/
def launchState (c : Config) (input1 input2 : Int) (program : List Word) : State :=
  { pc := 0
    hi := 0
    lo := 0
    regs := launchRegs c input1 input2
    mem := placeProgram program 0
    status := .running
    cfg := c }

/-- `LAUNCH(input1, input2, program)` (70_reset_and_hazards.md R121): the whole state is replaced, whatever it was, but
for the block's fixed parameters (R120). A program of more than 2^30 words is refused (R125). -/
def launch (S : State) (input1 input2 : Int) (program : List Word) : Host.Outcome State Fault Refusal :=
  if program.length ≤ maxProgramWords then .next (launchState S.cfg input1 input2 program)
  else .refused .programTooLong

/-! ### Program text (70_reset_and_hazards.md R129) -/

/-- The characters that break a line (log entry 21). -/
def isLineBreak (c : Char) : Bool := c == '\n' || c == '\r'

/-- Split on the two-character separator `", "`; a text without it is one item. -/
def splitItems : List Char → List (List Char)
  | [] => [[]]
  | ',' :: ' ' :: rest => [] :: splitItems rest
  | c :: rest =>
    match splitItems rest with
    | [] => [[c]]
    | item :: items => (c :: item) :: items

/-- The words of a program text, or nothing where an item is malformed (70_reset_and_hazards.md R129;
10_state.md R20). -/
def parseProgram (text : List Char) : Option (List Word) :=
  (splitItems (text.filter fun c => !isLineBreak c)).mapM fun item => (decodeUnsigned item).map fun n => word n

/-- A launch from a program text; a malformed one is refused (70_reset_and_hazards.md R129). -/
def launchText (S : State) (input1 input2 : Int) (text : List Char) : Host.Outcome State Fault Refusal :=
  match parseProgram text with
  | some program => launch S input1 input2 program
  | none => .refused .malformedProgramText

end Sys2Proof.Machine
end

