-- ==== Sys2Proof/Machine/Snapshot.lean ====
section
/-! DEFINITION. `SNAPSHOT`: the state as the block exposes it (10_state.md R34; 70_reset_and_hazards.md R120). -/

namespace Sys2Proof.Machine

/-- A snapshot: every word and every memory address in the 32-character form (10_state.md R34). -/
structure Snapshot where
  pc : BitString
  hi : BitString
  lo : BitString
  /-- The 32-entry register array. -/
  regs : List BitString
  /-- The addresses that have an entry, each with its word. -/
  mem : List (BitString × BitString)
  deriving DecidableEq, Repr

/-- The snapshot of a state; it changes nothing, and the run status is not in it (10_state.md R31, R34). -/
def snapshot (S : State) : Snapshot :=
  { pc := encodeWord S.pc
    hi := encodeWord S.hi
    lo := encodeWord S.lo
    regs := S.regs.toList.map encodeWord
    mem := S.mem.map fun p => (encodeBits p.1, encodeWord p.2) }

/-- The entry a host watches for output: the one under `OUTPUT_PORT` (20_memory.md R44). -/
def outputPortEntry (S : State) : Option Word := S.entry (uint S.cfg.outputPort)

end Sys2Proof.Machine
end

