-- ==== Sys2Proof/Machine/Driver.lean ====
section
/-! DEFINITION. The host side: the outcome of a step (40_execution_cycle.md R67), the Trace loop and the step ceiling
(70_reset_and_hazards.md R130 to R132). It adds no state to the block. -/

namespace Sys2Proof.Machine

/-- The state a step leaves (`step` always answers a next state; the other arms keep the state). -/
def stepState (S : State) : State :=
  match step S with
  | .next T => T
  | .fault _ => S
  | .refused _ => S

/-- What a step returns, `Continue`, `Halted` or `Faulted(kind)`: the run status it leaves (40_execution_cycle.md R67;
10_state.md R31). -/
def stepOutcome (S : State) : Status := (stepState S).status

/-- How the host's loop ends (70_reset_and_hazards.md R130, R131). -/
inductive RunEnd where
  /-- The block reached `SENTINEL`. -/
  | halted
  /-- A step returned `Faulted(kind)`. -/
  | faulted (k : Fault)
  /-- The host's ceiling, no state of the block. -/
  | stepLimitExceeded
  deriving DecidableEq, Repr

/-- The loop of 70_reset_and_hazards.md R130 with `STEP_LIMIT` given: the Trace and how it ended. -/
def runTraced : Nat → State → List Snapshot × RunEnd
  | limit, S =>
    if S.pc = S.cfg.sentinel then ([snapshot S], .halted)
    else
      match limit with
      | 0 => ([snapshot S], .stepLimitExceeded)
      | n + 1 =>
        match stepOutcome S with
        | .faulted k => ([snapshot S, snapshot (stepState S)], .faulted k)
        | _ =>
          match runTraced n (stepState S) with
          | (trace, ending) => (snapshot S :: trace, ending)

/-- The loop with no `STEP_LIMIT`, where it ends within `fuel` steps (log entry 23). -/
def runToEnd (fuel : Nat) (S : State) : Option (List Snapshot × RunEnd) :=
  match runTraced fuel S with
  | (_, .stepLimitExceeded) => none
  | (trace, .halted) => some (trace, .halted)
  | (trace, .faulted k) => some (trace, .faulted k)

/-- `k` steps of the block. -/
def stepsState : Nat → State → State
  | 0, S => S
  | k + 1, S => stepsState k (stepState S)

end Sys2Proof.Machine
end

