-- ==== Sys2Proof/WellFormed.lean ====
section
/-! DEFINITION. When an instruction is well formed: its operand types already hold the ranges of 30_encoding.md R53
and R56, so the one check is that an `unknown` word is no recognized word (30_encoding.md R62). -/

namespace Sys2Proof

/-- Well-formedness, one line per constructor. -/
def Instr.wellFormed : Instr → Bool
  | .add _ _ _ => true
  | .sub _ _ _ => true
  | .mult _ _ => true
  | .multu _ _ => true
  | .div _ _ => true
  | .divu _ _ => true
  | .mfhi _ => true
  | .mflo _ => true
  | .lis _ => true
  | .lw _ _ _ => true
  | .sw _ _ _ => true
  | .slt _ _ _ => true
  | .sltu _ _ _ => true
  | .beq _ _ _ => true
  | .bne _ _ _ => true
  | .jr _ => true
  | .jalr _ => true
  | .unknown w => !recognizedByFields w

end Sys2Proof
end

