-- ==== Sys2Proof/Safety.lean ====
section
/-! DEFINITION. The terms claims use: what an instruction may read and write (10_state.md R24), what a step leaves
unchanged, which fault a state raises (60_exceptions.md R109), and the invariant of the machine. -/

namespace Sys2Proof.Machine

/-! ### What an instruction reads and writes -/

/-- The nine variants that execute (30_encoding.md R57). -/
def executes : Instr → Bool
  | .add _ _ _ => true
  | .sub _ _ _ => true
  | .mult _ _ => true
  | .multu _ _ => true
  | .div _ _ => false
  | .divu _ _ => false
  | .mfhi _ => false
  | .mflo _ => false
  | .lis _ => true
  | .lw _ _ _ => true
  | .sw _ _ _ => true
  | .slt _ _ _ => false
  | .sltu _ _ _ => false
  | .beq _ _ _ => false
  | .bne _ _ _ => false
  | .jr _ => true
  | .jalr _ => true
  | .unknown _ => false

/-- The general registers a variant reads (10_state.md R24). -/
def readRegs : Instr → List Reg
  | .add _ s t => [s, t]
  | .sub _ s t => [s, t]
  | .mult s t => [s, t]
  | .multu s t => [s, t]
  | .lw _ s _ => [s]
  | .sw t s _ => [s, t]
  | .jr s => [s]
  | .jalr s => [s]
  | _ => []

/-- The general register a variant writes when it completes, if any (10_state.md R24). -/
def writtenReg : Instr → Option Reg
  | .add d _ _ => some d
  | .sub d _ _ => some d
  | .lis d => some d
  | .lw t _ _ => some t
  | .jalr _ => some 31
  | _ => none

/-- The variants that write `HI` and `LO` (10_state.md R24, R25). -/
def writesHiLo : Instr → Bool
  | .mult _ _ => true
  | .multu _ _ => true
  | _ => false

/-! ### What is unchanged from `S` to `T` -/

/-- Every general register but the listed ones. -/
def RegsKept (S T : State) (but : List Reg) : Prop := ∀ r, r ∉ but → T.reg r = S.reg r

/-- Every memory entry, present or absent, but those under the listed addresses. -/
def EntriesKept (S T : State) (but : List Nat) : Prop := ∀ a, a ∉ but → T.entry a = S.entry a

/-- `HI` and `LO`. -/
def HiLoKept (S T : State) : Prop := T.hi = S.hi ∧ T.lo = S.lo

/-- The run status and the block's parameters. -/
def StatusKept (S T : State) : Prop := T.status = S.status ∧ T.cfg = S.cfg

/-- Everything but the run status: what a raise keeps (60_exceptions.md R108). -/
def SameButStatus (S T : State) : Prop :=
  T.pc = S.pc ∧ HiLoKept S T ∧ RegsKept S T [] ∧ EntriesKept S T [] ∧ T.mem = S.mem ∧ T.cfg = S.cfg

/-! ### Which fault a step raises -/

/-- The fault of a read of an address with no entry (60_exceptions.md R109 items 2 and 5). -/
def absentFault (S : State) (a : Nat) : Option Fault :=
  match S.entry a with
  | none => some (.uninitializedMemoryRead a)
  | some _ => none

/-- The fault of a data access at the integer address `ea`: out of range first, then, for a read, an absent entry
(60_exceptions.md R109 items 4 and 5). -/
def accessFault (S : State) (ea : Int) (isRead : Bool) : Option Fault :=
  if ea < 0 ∨ 2 ^ 32 ≤ ea then some (.invalidAddress ea)
  else if isRead then absentFault S ea.toNat
  else none

/-- The fault the variant of a fetched word raises (60_exceptions.md R109 items 3 to 5). -/
def variantFault (S : State) (w : Word) : Option Fault :=
  match decode w with
  | .unknown _ => some (.unknownInstruction w)
  | .lis _ => absentFault S (uint (word ((uint S.pc : Int) + 4)))
  | .lw _ s i => accessFault S (signed16 i + uint (S.reg s)) true
  | .sw _ s i => accessFault S (signed16 i + uint (S.reg s)) false
  | i => if executes i then none else some (.unsupportedInstruction w)

/-- The first fault a running state not at `SENTINEL` raises, in the order of 60_exceptions.md R109. -/
def expectedFault (S : State) : Option Fault :=
  if uint S.pc % 4 ≠ 0 then some (.misalignedFetch S.pc)
  else
    match S.entry (uint S.pc) with
    | none => some (.uninitializedMemoryRead (uint S.pc))
    | some w => variantFault S w

/-- A step of `S` executes the word `w`: the block runs, is not at `SENTINEL`, and fetches `w`
(40_execution_cycle.md R68). -/
def Fetches (S : State) (w : Word) : Prop :=
  S.status = .running ∧ S.pc ≠ S.cfg.sentinel ∧ uint S.pc % 4 = 0 ∧ S.entry (uint S.pc) = some w

/-! ### The invariant -/

/-- The machine's invariant: memory is canonical, and a terminal status is the one its own state leads to, so a halted
block is at `SENTINEL` and a faulted one holds the fault its state raises (60_exceptions.md R107, R108, R112). -/
structure Inv (S : State) : Prop where
  memWf : S.mem.wf
  terminalExplained : S.status ≠ .running → step (S.setStatus .running) = .next S

end Sys2Proof.Machine
end

