-- ==== Sys2Proof/Certificates/Slice0/Obligations.lean ====
section
/-! DEFINITION. The statements for the provers, each a numbered rule of the spec or a property derived from its rules.
Every statement is for every value of the block's parameters (00_scope.md R7). -/

open Sys2Proof Sys2Proof.Machine

/-! ### Encoding -/

/-- One word of each variant, written out from the patterns of 30_encoding.md R60, decodes to its instruction
(95_test_vectors.md section 2.2, vectors X1 to X18). -/
def Obligations.DecodesSpecWords : Prop :=
  decode 0x00221820 = .add 3 1 2 ∧ decode 0x00221822 = .sub 3 1 2 ∧ decode 0x03FF0018 = .mult 31 31 ∧
  decode 0x00220019 = .multu 1 2 ∧ decode 0x0022001A = .div 1 2 ∧ decode 0x0022001B = .divu 1 2 ∧
  decode 0x00001810 = .mfhi 3 ∧ decode 0x00001812 = .mflo 3 ∧ decode 0x0000F814 = .lis 31 ∧
  decode 0x8C85FFFC = .lw 5 4 0xFFFC ∧ decode 0xAC810000 = .sw 1 4 0 ∧ decode 0x0022182A = .slt 3 1 2 ∧
  decode 0x0022182B = .sltu 3 1 2 ∧ decode 0x10220001 = .beq 1 2 1 ∧ decode 0x1422FFFF = .bne 1 2 0xFFFF ∧
  decode 0x03E00008 = .jr 31 ∧ decode 0x00A00009 = .jalr 5 ∧ decode 0x00000000 = .unknown 0x00000000 ∧
  decode 0x00221860 = .unknown 0x00221860 ∧ decode 0x00A0F809 = .unknown 0x00A0F809

/-- The mask/pattern table row by row (30_encoding.md R59, R60): a word with a row's fixed bits is that row's variant,
with its operands in the fields of R53, and a word with none of them is `Unknown`. -/
def Obligations.TableRowsDecode : Prop :=
  ∀ w : Word,
    (w &&& 0xFC0007FF = 0x00000020 → decode w = .add (fieldD w) (fieldS w) (fieldT w)) ∧
    (w &&& 0xFC0007FF = 0x00000022 → decode w = .sub (fieldD w) (fieldS w) (fieldT w)) ∧
    (w &&& 0xFC00FFFF = 0x00000018 → decode w = .mult (fieldS w) (fieldT w)) ∧
    (w &&& 0xFC00FFFF = 0x00000019 → decode w = .multu (fieldS w) (fieldT w)) ∧
    (w &&& 0xFC00FFFF = 0x0000001A → decode w = .div (fieldS w) (fieldT w)) ∧
    (w &&& 0xFC00FFFF = 0x0000001B → decode w = .divu (fieldS w) (fieldT w)) ∧
    (w &&& 0xFFFF07FF = 0x00000010 → decode w = .mfhi (fieldD w)) ∧
    (w &&& 0xFFFF07FF = 0x00000012 → decode w = .mflo (fieldD w)) ∧
    (w &&& 0xFFFF07FF = 0x00000014 → decode w = .lis (fieldD w)) ∧
    (w &&& 0xFC000000 = 0x8C000000 → decode w = .lw (fieldT w) (fieldS w) (fieldI w)) ∧
    (w &&& 0xFC000000 = 0xAC000000 → decode w = .sw (fieldT w) (fieldS w) (fieldI w)) ∧
    (w &&& 0xFC0007FF = 0x0000002A → decode w = .slt (fieldD w) (fieldS w) (fieldT w)) ∧
    (w &&& 0xFC0007FF = 0x0000002B → decode w = .sltu (fieldD w) (fieldS w) (fieldT w)) ∧
    (w &&& 0xFC000000 = 0x10000000 → decode w = .beq (fieldS w) (fieldT w) (fieldI w)) ∧
    (w &&& 0xFC000000 = 0x14000000 → decode w = .bne (fieldS w) (fieldT w) (fieldI w)) ∧
    (w &&& 0xFC1FFFFF = 0x00000008 → decode w = .jr (fieldS w)) ∧
    (w &&& 0xFC1FFFFF = 0x00000009 → decode w = .jalr (fieldS w)) ∧
    ((∀ r ∈ decodeTable, w &&& r.mask ≠ r.pattern) → decode w = .unknown w)

/-- Decoding the word of a well-formed instruction gives it back, at every operand value (30_encoding.md R53 to R60). -/
def Obligations.DecodeOfEncode : Prop :=
  ∀ i : Instr, i.wellFormed = true → decode (encode i) = i

/-- Each word is the word of the one instruction it decodes to, and that instruction is well formed: no bit of a
recognized word is dropped (30_encoding.md R58 to R60). -/
def Obligations.EncodeOfDecode : Prop :=
  ∀ w : Word, encode (decode w) = w ∧ (decode w).wellFormed = true

/-- 30_encoding.md R61, whole: every two rows differ in a bit fixed in both, by function codes and opcodes that are all
distinct; no word matches two rows, so no reordering changes a result; and the two counts of words. -/
def Obligations.RowsAreDisjointAndCounted : Prop :=
  decodeTable.Pairwise (fun r q => r.mask &&& q.mask &&& (r.pattern ^^^ q.pattern) ≠ 0) ∧
  (decodeTable.filter fun r => fieldOp r.pattern == 0).map (fun r => fieldFn r.pattern) =
    [0x20, 0x22, 0x18, 0x19, 0x1A, 0x1B, 0x10, 0x12, 0x14, 0x2A, 0x2B, 0x08, 0x09] ∧
  (decodeTable.filter fun r => fieldOp r.pattern != 0).map (fun r => fieldOp r.pattern) =
    [0b100011, 0b101011, 0b000100, 0b000101] ∧
  decodeTable.Pairwise (fun r q => ∀ w : Word, ¬ (r.accepts w = true ∧ q.accepts w = true)) ∧
  (∀ table : List TableRow, table.Perm decodeTable →
    ∀ w : Word, table.find? (fun r => r.accepts w) = firstRow w) ∧
  Nat.card { w : Word // firstRow w ≠ none } = 268570784 ∧
  Nat.card { w : Word // firstRow w = none } = 4026396512

/-- The words no row matches are those 30_encoding.md R62 describes by their fields, the all-zero word among them, and
the step that fetches one raises `UnknownInstruction` with the word. -/
def Obligations.UnknownWordsByFieldsFault : Prop :=
  (∀ w : Word, firstRow w = none ↔ recognizedByFields w = false) ∧
  firstRow 0x00000000 = none ∧
  ∀ (S : State) (w : Word), Fetches S w → firstRow w = none →
    step S = .next (S.setStatus (.faulted (.unknownInstruction w)))

/-! ### The step -/

/-- The frame of a step in its order: a terminal status stays, a PC equal to `SENTINEL` halts before any other check,
then the misaligned fetch, then the absent entry, then the decoded instruction runs (40_execution_cycle.md R68 to
R73). `exec` is the variant's rule in its frame, the PC advance included. -/
def Obligations.StepFollowsTheFrame : Prop :=
  ∀ S : State,
    (S.status ≠ .running → step S = .next S) ∧
    (S.status = .running → S.pc = S.cfg.sentinel → step S = .next (S.setStatus .halted)) ∧
    (S.status = .running → S.pc ≠ S.cfg.sentinel → uint S.pc % 4 ≠ 0 →
      step S = .next (S.setStatus (.faulted (.misalignedFetch S.pc)))) ∧
    (S.status = .running → S.pc ≠ S.cfg.sentinel → uint S.pc % 4 = 0 → S.entry (uint S.pc) = none →
      step S = .next (S.setStatus (.faulted (.uninitializedMemoryRead (uint S.pc))))) ∧
    (∀ w : Word, Fetches S w → step S = exec (decode w) S)

/-- The next step after an instruction is placed runs exactly it, from every state: the model's own placing of a
word (log entry 3). -/
def Obligations.StepRunsPlacedInstruction : Prop :=
  ∀ (S : State) (nbits w : Nat) (i : Instr), decodeTableWord nbits w = some i →
    step (S.withFetchWord nbits w) = exec i (S.withFetchWord nbits w)

/-- A step always answers a next state: faults and halts are states of the block (log entry 1), so one agent can always
step (40_execution_cycle.md R67; 70_reset_and_hazards.md R134). -/
def Obligations.StepAlwaysAnswersNext : Prop := ∀ S : State, ∃ T : State, step S = .next T

/-- A step that raises no fault leaves the run status `Running` and the PC at the address of the next instruction
(40_execution_cycle.md R76). -/
def Obligations.PcAfterCompletedStep : Prop :=
  ∀ (S T : State) (w : Word), Fetches S w → step S = .next T →
    (∃ k, T.status = .faulted k) ∨
    (T.status = .running ∧
      T.pc =
        match decode w with
        | .lis _ => word ((uint S.pc : Int) + 8)
        | .jr s => S.reg s
        | .jalr s => S.reg s
        | _ => word ((uint S.pc : Int) + 4))

/-- PC arithmetic is modulo 2^32 (10_state.md R28). -/
def Obligations.PcAdvanceWraps : Prop :=
  (∀ pc : Word, uint (nextPc pc) = (uint pc + 4) % 2 ^ 32) ∧ nextPc 0xFFFFFFFC = 0x00000000

/-! ### Arithmetic -/

/-- `Add` completes from every state (41_alu.md R79), with its frame. -/
def Obligations.AddWritesWrappedSum : Prop :=
  ∀ (d s t : Reg) (S : State), ∃ T : State, exec (.add d s t) S = .next T ∧
    T.reg d = word ((uint (S.reg s) : Int) + uint (S.reg t)) ∧ T.pc = word ((uint S.pc : Int) + 4) ∧
    RegsKept S T [d] ∧ HiLoKept S T ∧ EntriesKept S T [] ∧ StatusKept S T

/-- `Sub` completes from every state (41_alu.md R80), with its frame. -/
def Obligations.SubWritesWrappedDifference : Prop :=
  ∀ (d s t : Reg) (S : State), ∃ T : State, exec (.sub d s t) S = .next T ∧
    T.reg d = word ((uint (S.reg s) : Int) - uint (S.reg t)) ∧ T.pc = word ((uint S.pc : Int) + 4) ∧
    RegsKept S T [d] ∧ HiLoKept S T ∧ EntriesKept S T [] ∧ StatusKept S T

/-- Register 0 is an ordinary register (10_state.md R22): every variant with a destination operand writes it when the
operand is 0, and a later read, here by `add $d, $0, $0`, reads the written value. -/
def Obligations.RegisterZeroIsOrdinary : Prop :=
  ∀ (s t d : Reg) (i : BitVec 16) (S : State),
    (∃ T : State, exec (.add 0 s t) S = .next T ∧ T.reg 0 = word ((uint (S.reg s) : Int) + uint (S.reg t))) ∧
    (∃ T : State, exec (.sub 0 s t) S = .next T ∧ T.reg 0 = word ((uint (S.reg s) : Int) - uint (S.reg t))) ∧
    (∀ v : Word, S.entry (uint (word ((uint S.pc : Int) + 4))) = some v →
      ∃ T : State, exec (.lis 0) S = .next T ∧ T.reg 0 = v) ∧
    (∀ v : Word, 0 ≤ effectiveAddress S s i → effectiveAddress S s i < 2 ^ 32 →
      S.entry (effectiveAddress S s i).toNat = some v →
      ∃ T : State, exec (.lw 0 s i) S = .next T ∧ T.reg 0 = v) ∧
    (∃ U : State, exec (.add d 0 0) S = .next U ∧ U.reg d = word ((uint (S.reg 0) : Int) + uint (S.reg 0)))

/-- The laws of the ALU (41_alu.md R78): the signed and the unsigned reading give one word, and the result depends only
on the two operands, not on the destination's prior value. -/
def Obligations.AluResultsIndependentOfReading : Prop :=
  (∀ a b : Word, word (sint a + sint b) = word ((uint a : Int) + uint b) ∧
    word (sint a - sint b) = word ((uint a : Int) - uint b)) ∧
  (∀ (d s t : Reg) (S T S' T' : State), S.reg s = T.reg s → S.reg t = T.reg t →
    exec (.add d s t) S = .next S' → exec (.add d s t) T = .next T' →
    S'.reg d = T'.reg d ∧ uint (S'.reg d) = (uint (S.reg s) + uint (S.reg t)) % 2 ^ 32) ∧
  (∀ (d s t : Reg) (S T S' T' : State), S.reg s = T.reg s → S.reg t = T.reg t →
    exec (.sub d s t) S = .next S' → exec (.sub d s t) T = .next T' →
    S'.reg d = T'.reg d ∧ (uint (S'.reg d) : Int) = ((uint (S.reg s) : Int) - uint (S.reg t)) % 2 ^ 32)

/-- `Mult` completes from every state (42_multiply_divide.md R83), with its frame: no general register is written. -/
def Obligations.MultWritesSignedProduct : Prop :=
  ∀ (s t : Reg) (S : State), ∃ T : State, exec (.mult s t) S = .next T ∧
    T.hi = word (((sint (S.reg s) * sint (S.reg t)) % 2 ^ 64) / 2 ^ 32) ∧
    T.lo = word (((sint (S.reg s) * sint (S.reg t)) % 2 ^ 64) % 2 ^ 32) ∧
    T.pc = word ((uint S.pc : Int) + 4) ∧ RegsKept S T [] ∧ EntriesKept S T [] ∧ StatusKept S T

/-- `MultU` completes from every state (42_multiply_divide.md R84), with its frame: no general register is written. -/
def Obligations.MultuWritesUnsignedProduct : Prop :=
  ∀ (s t : Reg) (S : State), ∃ T : State, exec (.multu s t) S = .next T ∧
    T.hi = word (((uint (S.reg s) : Int) * uint (S.reg t)) / 2 ^ 32) ∧
    T.lo = word (((uint (S.reg s) : Int) * uint (S.reg t)) % 2 ^ 32) ∧
    T.pc = word ((uint S.pc : Int) + 4) ∧ RegsKept S T [] ∧ EntriesKept S T [] ∧ StatusKept S T

/-- The exact results of 42_multiply_divide.md R82: `HI:LO` read as one 64-bit value is the product itself, signed for
`Mult` and unsigned for `MultU`, and `LO` is one word for both. -/
def Obligations.ProductsAreExact : Prop :=
  ∀ (s t : Reg) (S T U : State), exec (.mult s t) S = .next T → exec (.multu s t) S = .next U →
    (T.hi ++ T.lo).toInt = sint (S.reg s) * sint (S.reg t) ∧
    (U.hi ++ U.lo).toNat = uint (S.reg s) * uint (S.reg t) ∧
    T.lo = U.lo ∧ T.lo = word ((uint (S.reg s) : Int) * uint (S.reg t))

/-- By how much the two `HI` words differ, for every pair of operands (42_multiply_divide.md R83, R84): a word with bit
31 set costs the other operand once. -/
def Obligations.HiWordsDifferByOperands : Prop :=
  ∀ (s t : Reg) (S T U : State), exec (.mult s t) S = .next T → exec (.multu s t) S = .next U →
    U.hi = T.hi + (if (S.reg s).msb then S.reg t else 0) + (if (S.reg t).msb then S.reg s else 0)

/-- The sentence of 42_multiply_divide.md R82 "The two differ in `HI` exactly when an operand has bit 31 set", word for
word. Expected to FAIL: rules R83 and R84 and vectors M5 and M14 contradict it (log entry 19). -/
def Obligations.HiWordsDifferExactlyOnBit31 : Prop :=
  ∀ (s t : Reg) (S T U : State), exec (.mult s t) S = .next T → exec (.multu s t) S = .next U →
    (T.hi ≠ U.hi ↔ ((S.reg s).msb = true ∨ (S.reg t).msb = true))

/-! ### Variants that raise -/

/-- The eight recognized variants that do not execute raise `UnsupportedInstruction` with their word, from every state
and for every operand value, and nothing but the run status changes (42_multiply_divide.md R85 to R88;
43_compare_branch.md R90 to R93). -/
def Obligations.UnsupportedVariantsFault : Prop :=
  ∀ (d s t : Reg) (imm : BitVec 16) (S : State),
    ∀ i ∈ [Instr.div s t, .divu s t, .mfhi d, .mflo d, .slt d s t, .sltu d s t, .beq s t imm, .bne s t imm],
      ∃ T : State, exec i S = .next T ∧ T.status = .faulted (.unsupportedInstruction (encode i)) ∧
        SameButStatus S T

/-- `Unknown` raises `UnknownInstruction` with its word, and nothing but the run status changes (46_unknown.md R105). -/
def Obligations.UnknownWordFaults : Prop :=
  ∀ (w : Word) (S : State), ∃ T : State, exec (.unknown w) S = .next T ∧
    T.status = .faulted (.unknownInstruction w) ∧ SameButStatus S T

/-- A variant that does not execute records the word that was fetched (60_exceptions.md R106), though the model computes
it from the instruction (log entry 15). -/
def Obligations.RecordedWordIsTheFetchedOne : Prop :=
  ∀ (S : State) (w : Word), Fetches S w → executes (decode w) = false →
    step S = .next (S.setStatus (.faulted
      (if firstRow w = none then .unknownInstruction w else .unsupportedInstruction w)))

/-! ### Loads and stores -/

/-- Extension (00_scope.md R10): `sext_32` repeats bit 15, `zext_32` fills with zeros, and `signed16` is the 16-bit
two's-complement value. -/
def Obligations.ImmediateExtension : Prop :=
  ∀ v : BitVec 16,
    sext32 v = (BitVec.replicate 16 (v.extractLsb' 15 1)).cast (by decide) ++ v ∧ sint (sext32 v) = v.toInt ∧
    zext32 v = 0#16 ++ v ∧ signed16 v = sint (sext32 v) ∧ -32768 ≤ signed16 v ∧ signed16 v ≤ 32767

/-- The effective address is the integer sum, not reduced modulo 2^32 (44_load_store.md R94). -/
def Obligations.EffectiveAddressIsIntegerSum : Prop :=
  ∀ (S : State) (s : Reg) (i : BitVec 16),
    effectiveAddress S s i = sint (sext32 i) + (uint (S.reg s) : Int) ∧
    -32768 ≤ effectiveAddress S s i ∧ effectiveAddress S s i ≤ 2 ^ 32 - 1 + 32767

/-- `Lis` (44_load_store.md R96): with a data word under the advanced PC it completes, with its frame; without one it
raises `UninitializedMemoryRead` and only the run status changes. -/
def Obligations.LisLoadsInlineWord : Prop :=
  ∀ (d : Reg) (S : State),
    (∀ v : Word, S.entry (uint (word ((uint S.pc : Int) + 4))) = some v →
      ∃ T : State, exec (.lis d) S = .next T ∧ T.reg d = v ∧ T.pc = word ((uint S.pc : Int) + 8) ∧
        RegsKept S T [d] ∧ HiLoKept S T ∧ EntriesKept S T [] ∧ StatusKept S T) ∧
    (S.entry (uint (word ((uint S.pc : Int) + 4))) = none →
      ∃ T : State, exec (.lis d) S = .next T ∧
        T.status = .faulted (.uninitializedMemoryRead (uint (word ((uint S.pc : Int) + 4)))) ∧ SameButStatus S T)

/-- `Lw` (44_load_store.md R97): in range with an entry it completes, with its frame; out of range it raises
`InvalidAddress`; in range with no entry it raises `UninitializedMemoryRead`. -/
def Obligations.LwLoadsEntry : Prop :=
  ∀ (t s : Reg) (i : BitVec 16) (S : State),
    (∀ v : Word, 0 ≤ effectiveAddress S s i → effectiveAddress S s i < 2 ^ 32 →
      S.entry (effectiveAddress S s i).toNat = some v →
      ∃ T : State, exec (.lw t s i) S = .next T ∧ T.reg t = v ∧ T.pc = word ((uint S.pc : Int) + 4) ∧
        RegsKept S T [t] ∧ HiLoKept S T ∧ EntriesKept S T [] ∧ StatusKept S T) ∧
    (effectiveAddress S s i < 0 ∨ 2 ^ 32 ≤ effectiveAddress S s i →
      ∃ T : State, exec (.lw t s i) S = .next T ∧
        T.status = .faulted (.invalidAddress (effectiveAddress S s i)) ∧ SameButStatus S T) ∧
    (0 ≤ effectiveAddress S s i → effectiveAddress S s i < 2 ^ 32 →
      S.entry (effectiveAddress S s i).toNat = none →
      ∃ T : State, exec (.lw t s i) S = .next T ∧
        T.status = .faulted (.uninitializedMemoryRead (effectiveAddress S s i).toNat) ∧ SameButStatus S T)

/-- `Sw` (44_load_store.md R98): in range it completes, the entry under the effective address holds the source and every
other entry is as before; out of range it raises `InvalidAddress`. -/
def Obligations.SwStoresWord : Prop :=
  ∀ (t s : Reg) (i : BitVec 16) (S : State),
    (0 ≤ effectiveAddress S s i → effectiveAddress S s i < 2 ^ 32 →
      ∃ T : State, exec (.sw t s i) S = .next T ∧
        T.entry (effectiveAddress S s i).toNat = some (S.reg t) ∧
        EntriesKept S T [(effectiveAddress S s i).toNat] ∧ T.pc = word ((uint S.pc : Int) + 4) ∧
        RegsKept S T [] ∧ HiLoKept S T ∧ StatusKept S T) ∧
    (effectiveAddress S s i < 0 ∨ 2 ^ 32 ≤ effectiveAddress S s i →
      ∃ T : State, exec (.sw t s i) S = .next T ∧
        T.status = .faulted (.invalidAddress (effectiveAddress S s i)) ∧ SameButStatus S T)

/-- A store followed at once by a load with the same base and immediate loads the stored word (44_load_store.md R99). -/
def Obligations.StoreThenLoadReturnsWord : Prop :=
  ∀ (S T : State) (w v : Word) (t u s : Reg) (i : BitVec 16),
    Fetches S w → decode w = .sw t s i → step S = .next T → T.status = .running →
    Fetches T v → decode v = .lw u s i →
    ∃ U : State, step T = .next U ∧ U.status = .running ∧ U.reg u = S.reg t

/-- Self-modifying code, the instance of 20_memory.md R50 at the very next step: the step after a store to the next
instruction's address runs the stored word, and a `Lis` that is next loads a stored data word. -/
def Obligations.StoreIsSeenByNextFetch : Prop :=
  ∀ (S T : State) (w : Word) (t s : Reg) (i : BitVec 16),
    Fetches S w → decode w = .sw t s i → step S = .next T → T.status = .running → T.pc ≠ T.cfg.sentinel →
    (effectiveAddress S s i = uint (word ((uint S.pc : Int) + 4)) → step T = exec (decode (S.reg t)) T) ∧
    (∀ (v : Word) (d : Reg), effectiveAddress S s i = uint (word ((uint S.pc : Int) + 8)) →
      T.entry (uint T.pc) = some v → decode v = .lis d →
      ∃ U : State, step T = .next U ∧ U.status = .running ∧ U.reg d = S.reg t)

/-! ### Memory as a map -/

/-- Each address is an independent key: a write changes the entry under its address only (20_memory.md R37), the key
before and the key after included. -/
def Obligations.EntriesAreIndependentKeys : Prop :=
  ∀ (S : State) (a : Nat) (v : Word),
    memRead (memWrite S a v) a = .ok v ∧ (∀ b, b ≠ a → memRead (memWrite S a v) b = memRead S b)

/-- Reads and writes are idempotent (20_memory.md R43), and a canonical memory is determined by its entries, so equal
memories are equal data. -/
def Obligations.CanonicalMemoryIsItsEntries : Prop :=
  (∀ (m : Memory) (a : Nat) (v : Word), m.wf → (m.write a v).write a v = m.write a v) ∧
  (∀ (m : Memory) (a : Nat) (v : Word), m.wf → m.read? a = some v → m.write a v = m) ∧
  (∀ m n : Memory, m.wf → n.wf → (∀ a, m.read? a = n.read? a) → m = n)

/-- What a step does to memory (20_memory.md R38): no entry is ever deleted, only a `Sw` changes one, and only the one
under its effective address. -/
def Obligations.MemoryChangesOnlyByStore : Prop :=
  ∀ S T : State, step S = .next T →
    (∀ a, S.entry a ≠ none → T.entry a ≠ none) ∧
    (T.mem ≠ S.mem → ∃ (w : Word) (t s : Reg) (i : BitVec 16), Fetches S w ∧ decode w = .sw t s i ∧
      0 ≤ effectiveAddress S s i ∧ effectiveAddress S s i < 2 ^ 32 ∧
      T.entry (effectiveAddress S s i).toNat = some (S.reg t) ∧
      EntriesKept S T [(effectiveAddress S s i).toNat])

/-! ### Jumps -/

/-- `Jr` completes from every state (45_jump.md R103), with its frame. -/
def Obligations.JrJumpsToRegister : Prop :=
  ∀ (s : Reg) (S : State), ∃ T : State, exec (.jr s) S = .next T ∧ T.pc = S.reg s ∧
    RegsKept S T [] ∧ HiLoKept S T ∧ EntriesKept S T [] ∧ StatusKept S T

/-- `Jalr` completes from every state (45_jump.md R104): the target is the register's old value even when it is register
31, and register 31 takes the return address; with its frame. -/
def Obligations.JalrLinksAndJumps : Prop :=
  ∀ (s : Reg) (S : State), ∃ T : State, exec (.jalr s) S = .next T ∧ T.pc = S.reg s ∧
    T.reg 31 = word ((uint S.pc : Int) + 4) ∧ RegsKept S T [31] ∧ HiLoKept S T ∧ EntriesKept S T [] ∧
    StatusKept S T

/-- A jump checks nothing, and its target meets the next step's start (45_jump.md R101): `SENTINEL` halts, else a target
that is not a multiple of 4 raises `MisalignedFetch`, else one with no entry raises `UninitializedMemoryRead`. -/
def Obligations.JumpTargetMeetsNextStep : Prop :=
  ∀ (s : Reg) (S : State) (i : Instr), i = .jr s ∨ i = .jalr s → S.status = .running →
    ∃ T : State, exec i S = .next T ∧ T.pc = S.reg s ∧
    (S.reg s = S.cfg.sentinel → step T = .next (T.setStatus .halted)) ∧
    (S.reg s ≠ S.cfg.sentinel → uint (S.reg s) % 4 ≠ 0 →
      step T = .next (T.setStatus (.faulted (.misalignedFetch (S.reg s))))) ∧
    (S.reg s ≠ S.cfg.sentinel → uint (S.reg s) % 4 = 0 → S.entry (uint (S.reg s)) = none →
      step T = .next (T.setStatus (.faulted (.uninitializedMemoryRead (uint (S.reg s))))))

/-- A `Jr` to its own address loops for ever: the block never leaves the state (45_jump.md R103;
93_implementation_defined.md I8). -/
def Obligations.JrToItselfNeverEnds : Prop :=
  ∀ (S : State) (w : Word) (s : Reg) (n : Nat), Fetches S w → decode w = .jr s → S.reg s = S.pc →
    Host.Core.run Sys2Proof.core n S = .next S

/-- A call returns: a `Jalr` and then, at its target, `jr $31` bring the PC to the instruction after the call
(45_jump.md R102, R104). -/
def Obligations.CallReturnsAfterTheCall : Prop :=
  ∀ (S T : State) (w v : Word) (s : Reg), Fetches S w → decode w = .jalr s → step S = .next T →
    Fetches T v → decode v = .jr 31 →
    ∃ U : State, step T = .next U ∧ U.pc = word ((uint S.pc : Int) + 4) ∧ U.status = .running ∧
      RegsKept S U [31] ∧ HiLoKept S U ∧ EntriesKept S U []

/-! ### Faults and terminal states -/

/-- Faults are precise (60_exceptions.md R108): a faulting step keeps none of its writes. -/
def Obligations.FaultsArePrecise : Prop :=
  ∀ (S T : State) (k : Fault), S.status = .running → step S = .next T → T.status = .faulted k →
    SameButStatus S T

/-- Which fault a step raises, and in which order (60_exceptions.md R109): a running block at `SENTINEL` halts before any
check; elsewhere it steps to the first fault of that order, and to `Running` when there is none. -/
def Obligations.FaultOrderOfAStep : Prop :=
  ∀ S : State, S.status = .running →
    ∃ T : State, step S = .next T ∧
      T.status =
        if S.pc = S.cfg.sentinel then .halted
        else
          match expectedFault S with
          | some k => .faulted k
          | none => .running

/-- A run halts if and only if the PC equals `SENTINEL`, and a fault ends the run without reaching it
(60_exceptions.md R112). -/
def Obligations.HaltsExactlyAtSentinel : Prop :=
  ∀ S T : State, S.status = .running → step S = .next T →
    (T.status = .halted ↔ S.pc = S.cfg.sentinel) ∧ (∀ k, T.status = .faulted k → T.pc ≠ T.cfg.sentinel)

/-- `Halted` and `Faulted` are terminal: any number of steps changes nothing (40_execution_cycle.md R69). -/
def Obligations.TerminalStatesPersist : Prop :=
  ∀ (S : State) (n : Nat), S.status ≠ .running → Host.Core.run Sys2Proof.core n S = .next S

/-! ### Whole-machine rules -/

/-- A step writes at most the one general register of its variant (10_state.md R24). -/
def Obligations.OneRegisterWrittenPerStep : Prop :=
  ∀ (S T : State) (r : Reg), step S = .next T → T.reg r ≠ S.reg r →
    ∃ w : Word, Fetches S w ∧ writtenReg (decode w) = some r

/-- Only `Mult` and `MultU` write `HI` or `LO` (10_state.md R24, R25). -/
def Obligations.HiLoWrittenOnlyByMultiply : Prop :=
  ∀ S T : State, step S = .next T → T.hi ≠ S.hi ∨ T.lo ≠ S.lo →
    ∃ w : Word, Fetches S w ∧ writesHiLo (decode w) = true

/-- A variant reads no register but those 10_state.md R24 lists: two states that differ in other registers only step
alike, and write the same values. -/
def Obligations.OnlyListedRegistersAreRead : Prop :=
  ∀ (i : Instr) (S T S' T' : State),
    T.pc = S.pc → HiLoKept S T → T.mem = S.mem → StatusKept S T → (∀ r ∈ readRegs i, T.reg r = S.reg r) →
    exec i S = .next S' → exec i T = .next T' →
    T'.pc = S'.pc ∧ HiLoKept S' T' ∧ T'.mem = S'.mem ∧ StatusKept S' T' ∧
    (∀ r, T.reg r = S.reg r → T'.reg r = S'.reg r) ∧
    (∀ r, S'.status = .running → writtenReg i = some r → T'.reg r = S'.reg r)

/-- No program can read `HI` or `LO` (10_state.md R25; 42_multiply_divide.md R87, R88): two states that differ in them
only run alike in everything else, for any number of steps. -/
def Obligations.HiLoAreNeverRead : Prop :=
  ∀ (S T : State) (n : Nat),
    T.pc = S.pc → RegsKept S T [] → T.mem = S.mem → StatusKept S T →
    (stepsState n T).pc = (stepsState n S).pc ∧ RegsKept (stepsState n S) (stepsState n T) [] ∧
    (stepsState n T).mem = (stepsState n S).mem ∧ StatusKept (stepsState n S) (stepsState n T)

/-- No step reads `STACK_TOP` or `OUTPUT_PORT` (20_memory.md R44, R45): other values of the two change nothing in any
number of steps. A launch, which is no step, sets register 30 from `STACK_TOP` (70_reset_and_hazards.md R122). -/
def Obligations.StackTopAndOutputPortUnread : Prop :=
  ∀ (S : State) (top port : Word) (n : Nat),
    stepsState n { S with cfg := { S.cfg with stackTop := top, outputPort := port } } =
      { stepsState n S with cfg := { S.cfg with stackTop := top, outputPort := port } }

/-- The parameters are fixed for the block: no step changes one (70_reset_and_hazards.md R120). -/
def Obligations.ParametersAreFixed : Prop := ∀ S T : State, step S = .next T → T.cfg = S.cfg

/-- Every step keeps the invariant: the memory's canonical form, and that a terminal status is the one its own state
leads to (60_exceptions.md R107, R108). -/
def Obligations.StepKeepsInvariant : Prop := ∀ S T : State, Inv S → step S = .next T → Inv T

/-- The invariant holds after reset. -/
def Obligations.ResetMeetsInvariant : Prop := Inv State.reset

/-! ### Launch -/

/-- `LAUNCH` replaces the whole state, whatever it was (70_reset_and_hazards.md R121 to R126): the registers, `HI`, `LO`,
the PC, the memory and the run status; a program longer than 2^30 words is refused. -/
def Obligations.LaunchSetsEveryField : Prop :=
  ∀ (S : State) (input1 input2 : Int) (program : List Word),
    (program.length ≤ 2 ^ 30 → ∃ T : State, launch S input1 input2 program = .next T ∧
      T.reg 1 = word input1 ∧ T.reg 2 = word input2 ∧ T.reg 30 = S.cfg.stackTop ∧ T.reg 31 = S.cfg.sentinel ∧
      (∀ r, r ≠ 1 → r ≠ 2 → r ≠ 30 → r ≠ 31 → T.reg r = 0) ∧ T.hi = 0 ∧ T.lo = 0 ∧ T.pc = 0 ∧
      (∀ k (h : k < program.length), T.entry (4 * k) = some program[k]) ∧
      (∀ a, (∀ k, k < program.length → a ≠ 4 * k) → T.entry a = none) ∧
      T.status = .running ∧ T.cfg = S.cfg) ∧
    (2 ^ 30 < program.length → launch S input1 input2 program = .refused .programTooLong)

/-- A launch leaves the invariant, for every program it accepts (70_reset_and_hazards.md R125; 20_memory.md R36). -/
def Obligations.LaunchMeetsInvariant : Prop :=
  ∀ (S T : State) (input1 input2 : Int) (program : List Word), launch S input1 input2 program = .next T → Inv T

/-- The reset state is a launch with the host's default inputs 1 and 2 and no program, for the parameter values the model
takes (the model's choice, log entries 2 and 3). -/
def Obligations.ResetIsTheDefaultLaunch : Prop :=
  ∀ S : State, S.cfg = State.reset.cfg → launch S 1 2 [] = .next State.reset

/-- The program text (70_reset_and_hazards.md R129): a list of words in 32-character form, separated by a comma and a
space, with line breaks anywhere (which characters break a line is the model's choice, log entry 21), reads as that list; a text with an item that is not 32 characters of `0` and `1`
is refused. -/
def Obligations.ProgramTextReadsBack : Prop :=
  (∀ (ws : List Word) (text : List Char), ws ≠ [] →
    text.filter (fun c => !isLineBreak c) = List.intercalate [',', ' '] (ws.map encodeWord) →
    parseProgram text = some ws) ∧
  (∀ (S : State) (input1 input2 : Int) (text item : List Char),
    item ∈ splitItems (text.filter fun c => !isLineBreak c) →
    ¬ (item.length = 32 ∧ ∀ c ∈ item, c = '0' ∨ c = '1') →
    launchText S input1 input2 text = .refused .malformedProgramText)

/-! ### Codec, snapshot and host -/

/-- `encode` (10_state.md R19): exactly `width` characters of `0` and `1` that spell the value modulo 2^width, most
significant first, and the round trip. -/
def Obligations.EncodeSpellsTheValue : Prop :=
  (∀ (value : Int) (width : Nat), (encodeBits value width).length = width ∧
    (∀ c ∈ encodeBits value width, c = '0' ∨ c = '1') ∧
    (bitsValue (encodeBits value width) : Int) = value % 2 ^ width ∧
    (∀ k, k < width → (encodeBits value width)[k]? =
      some (bitChar ((value % 2 ^ width).toNat.testBit (width - 1 - k))))) ∧
  (∀ x : Int, decodeUnsigned (encodeBits x) = some (x % 2 ^ 32).toNat)

/-- The two readings of a string (10_state.md R17, R18, R20): a string of exactly 32 characters `0` and `1` spells one
word, character 0 being bit 31, read unsigned and signed; any other string has no value. -/
def Obligations.DecodedStringIsTheWord : Prop :=
  ∀ bits : BitString,
    (bits.length = 32 ∧ (∀ c ∈ bits, c = '0' ∨ c = '1') →
      ∃ w : Word, decodeUnsigned bits = some (uint w) ∧ decodeSigned bits = some (sint w) ∧
        ∀ k, k < 32 → bits[k]? = some (bitChar (w.getLsbD (31 - k)))) ∧
    (¬ (bits.length = 32 ∧ ∀ c ∈ bits, c = '0' ∨ c = '1') → decodeUnsigned bits = none ∧ decodeSigned bits = none)

/-- The snapshot shows the whole execution state (10_state.md R34): two states of canonical memory with one snapshot
have the same PC, `HI`, `LO`, registers and memory. -/
def Obligations.SnapshotShowsTheState : Prop :=
  ∀ S T : State, S.mem.wf → T.mem.wf → snapshot S = snapshot T →
    T.pc = S.pc ∧ HiLoKept S T ∧ RegsKept S T [] ∧ T.mem = S.mem

/-- The Trace of a run that halts after `k` steps that returned `Continue`: its `k + 1` states, in order
(70_reset_and_hazards.md R130). -/
def Obligations.TraceOfAHaltingRun : Prop :=
  ∀ (S : State) (k limit : Nat), k ≤ limit →
    (∀ j, j < k → (stepsState j S).pc ≠ (stepsState j S).cfg.sentinel ∧
      stepOutcome (stepsState j S) = .running) →
    (stepsState k S).pc = (stepsState k S).cfg.sentinel →
    runTraced limit S = ((List.range (k + 1)).map (fun j => snapshot (stepsState j S)), .halted)

/-- The Trace of a run that faults at step `k + 1`: `k + 2` entries, the last two equal (70_reset_and_hazards.md R130). -/
def Obligations.TraceOfAFaultingRun : Prop :=
  ∀ (S : State) (k limit : Nat) (f : Fault), k < limit → S.status = .running →
    (∀ j, j < k → stepOutcome (stepsState j S) = .running) →
    (∀ j, j ≤ k → (stepsState j S).pc ≠ (stepsState j S).cfg.sentinel) →
    stepOutcome (stepsState k S) = .faulted f →
    runTraced limit S =
      ((List.range (k + 1)).map (fun j => snapshot (stepsState j S)) ++ [snapshot (stepsState k S)], .faulted f)

/-- The step ceiling (70_reset_and_hazards.md R131): a run that neither halts nor faults within the limit ends for the
host in `StepLimitExceeded` after that many steps, while the block is still `Running`. -/
def Obligations.StepLimitStopsTheHost : Prop :=
  ∀ (S : State) (limit : Nat), S.status = .running →
    (∀ j, j ≤ limit → (stepsState j S).pc ≠ (stepsState j S).cfg.sentinel) →
    (∀ j, j < limit → stepOutcome (stepsState j S) = .running) →
    runTraced limit S = ((List.range (limit + 1)).map (fun j => snapshot (stepsState j S)), .stepLimitExceeded) ∧
    (stepsState limit S).status = .running
end

