-- ==== Sys2Proof/Laws/State.lean ====
section
/-! SUPPORT. One lemma per field per update of the state, each true by its definition. -/

namespace Sys2Proof.Machine

variable (S : State) (r q : Reg) (v h l : Word) (m : Memory) (st : Status) (a : Nat)

@[simp] theorem State.setPc_pc : (S.setPc v).pc = v := rfl
@[simp] theorem State.setPc_hi : (S.setPc v).hi = S.hi := rfl
@[simp] theorem State.setPc_lo : (S.setPc v).lo = S.lo := rfl
@[simp] theorem State.setPc_reg : (S.setPc v).reg r = S.reg r := rfl
@[simp] theorem State.setPc_mem : (S.setPc v).mem = S.mem := rfl
@[simp] theorem State.setPc_entry : (S.setPc v).entry a = S.entry a := rfl
@[simp] theorem State.setPc_status : (S.setPc v).status = S.status := rfl
@[simp] theorem State.setPc_cfg : (S.setPc v).cfg = S.cfg := rfl

@[simp] theorem State.setReg_pc : (S.setReg r v).pc = S.pc := rfl
@[simp] theorem State.setReg_hi : (S.setReg r v).hi = S.hi := rfl
@[simp] theorem State.setReg_lo : (S.setReg r v).lo = S.lo := rfl
@[simp] theorem State.setReg_mem : (S.setReg r v).mem = S.mem := rfl
@[simp] theorem State.setReg_entry : (S.setReg r v).entry a = S.entry a := rfl
@[simp] theorem State.setReg_status : (S.setReg r v).status = S.status := rfl
@[simp] theorem State.setReg_cfg : (S.setReg r v).cfg = S.cfg := rfl

/-- A read after a register write: the written value at its index, the old value elsewhere (00_scope.md R11). -/
theorem State.setReg_reg : (S.setReg r v).reg q = if q = r then v else S.reg q := by
  by_cases h : q = r
  · subst h; simp [State.setReg, State.reg]
  · have h' : (r : Nat) ≠ q := fun e => h (Fin.ext e.symm)
    simp [State.setReg, State.reg, h, Vector.getElem_set_ne, h']

@[simp] theorem State.setReg_reg_same : (S.setReg r v).reg r = v := by simp [State.setReg_reg]

theorem State.setReg_reg_ne (h : q ≠ r) : (S.setReg r v).reg q = S.reg q := by simp [State.setReg_reg, h]

@[simp] theorem State.setHiLo_pc : (S.setHiLo h l).pc = S.pc := rfl
@[simp] theorem State.setHiLo_hi : (S.setHiLo h l).hi = h := rfl
@[simp] theorem State.setHiLo_lo : (S.setHiLo h l).lo = l := rfl
@[simp] theorem State.setHiLo_reg : (S.setHiLo h l).reg r = S.reg r := rfl
@[simp] theorem State.setHiLo_mem : (S.setHiLo h l).mem = S.mem := rfl
@[simp] theorem State.setHiLo_entry : (S.setHiLo h l).entry a = S.entry a := rfl
@[simp] theorem State.setHiLo_status : (S.setHiLo h l).status = S.status := rfl
@[simp] theorem State.setHiLo_cfg : (S.setHiLo h l).cfg = S.cfg := rfl

@[simp] theorem State.setMem_pc : (S.setMem m).pc = S.pc := rfl
@[simp] theorem State.setMem_hi : (S.setMem m).hi = S.hi := rfl
@[simp] theorem State.setMem_lo : (S.setMem m).lo = S.lo := rfl
@[simp] theorem State.setMem_reg : (S.setMem m).reg r = S.reg r := rfl
@[simp] theorem State.setMem_mem : (S.setMem m).mem = m := rfl
@[simp] theorem State.setMem_entry : (S.setMem m).entry a = m.read? a := rfl
@[simp] theorem State.setMem_status : (S.setMem m).status = S.status := rfl
@[simp] theorem State.setMem_cfg : (S.setMem m).cfg = S.cfg := rfl

@[simp] theorem State.setStatus_pc : (S.setStatus st).pc = S.pc := rfl
@[simp] theorem State.setStatus_hi : (S.setStatus st).hi = S.hi := rfl
@[simp] theorem State.setStatus_lo : (S.setStatus st).lo = S.lo := rfl
@[simp] theorem State.setStatus_reg : (S.setStatus st).reg r = S.reg r := rfl
@[simp] theorem State.setStatus_mem : (S.setStatus st).mem = S.mem := rfl
@[simp] theorem State.setStatus_entry : (S.setStatus st).entry a = S.entry a := rfl
@[simp] theorem State.setStatus_status : (S.setStatus st).status = st := rfl
@[simp] theorem State.setStatus_cfg : (S.setStatus st).cfg = S.cfg := rfl

/-- Two states with the same fields read the same way are equal: registers by index. -/
theorem State.ext_reg {S T : State} (hpc : T.pc = S.pc) (hhi : T.hi = S.hi) (hlo : T.lo = S.lo)
    (hreg : ∀ r, T.reg r = S.reg r) (hmem : T.mem = S.mem) (hst : T.status = S.status) (hcfg : T.cfg = S.cfg) :
    T = S := by
  have hregs : T.regs = S.regs := Vector.ext fun i hi => hreg ⟨i, hi⟩
  cases S; cases T; simp_all

end Sys2Proof.Machine
end

