-- ==== Sys2Proof/Laws/Memory.lean ====
section
/-! SUPPORT. The laws of the memory operations (20_memory.md R37, R38): a read after a write, and that a write keeps
the canonical form. -/

namespace Sys2Proof.Machine

@[simp] theorem Memory.read?_nil (a : Nat) : Memory.read? [] a = none := rfl

/-- A write creates or overwrites the entry under its address and no other. -/
theorem Memory.read?_write (m : Memory) (a b : Nat) (v : Word) :
    (m.write a v).read? b = if b = a then some v else m.read? b := by
  induction m with
  | nil =>
    by_cases h : b = a
    · subst h; simp [Memory.write, Memory.read?]
    · simp [Memory.write, Memory.read?, h, Ne.symm h]
  | cons p m ih =>
    obtain ⟨c, u⟩ := p
    by_cases hb : b = a
    · subst hb
      rcases Nat.lt_trichotomy b c with hlt | heq | hgt
      · simp [Memory.write, hlt, Memory.read?]
      · simp [Memory.write, heq, Memory.read?]
      · have h1 : ¬ b < c := by omega
        have h2 : b ≠ c := by omega
        simp [Memory.write, h1, h2, Memory.read?, Ne.symm h2, ih]
    · rcases Nat.lt_trichotomy a c with hlt | heq | hgt
      · simp [Memory.write, hlt, Memory.read?, hb, Ne.symm hb]
      · subst heq; simp [Memory.write, Memory.read?, hb, Ne.symm hb]
      · have h1 : ¬ a < c := by omega
        have h2 : a ≠ c := by omega
        simp [Memory.write, h1, h2, Memory.read?, ih, hb]

@[simp] theorem Memory.read?_write_same (m : Memory) (a : Nat) (v : Word) : (m.write a v).read? a = some v := by
  simp [Memory.read?_write]

theorem Memory.read?_write_ne (m : Memory) {a b : Nat} (h : b ≠ a) (v : Word) :
    (m.write a v).read? b = m.read? b := by
  simp [Memory.read?_write, h]

/-- An address of the written memory is the written one or one of before. -/
theorem Memory.mem_write {m : Memory} {a : Nat} {v : Word} {p : Nat × Word} (h : p ∈ m.write a v) :
    p = (a, v) ∨ p ∈ m := by
  induction m with
  | nil => simpa [Memory.write] using h
  | cons q m ih =>
    obtain ⟨c, u⟩ := q
    simp only [Memory.write] at h
    split at h
    · simpa using h
    · split at h
      · rcases List.mem_cons.mp h with h | h
        · exact .inl h
        · exact .inr (List.mem_cons_of_mem _ h)
      · rcases List.mem_cons.mp h with h | h
        · exact .inr (h ▸ List.mem_cons_self)
        · rcases ih h with h | h
          · exact .inl h
          · exact .inr (List.mem_cons_of_mem _ h)

/-- A write keeps the addresses rising. -/
theorem Memory.write_sorted {m : Memory} (hm : m.Pairwise (fun p q => p.1 < q.1)) (a : Nat) (v : Word) :
    (m.write a v).Pairwise (fun p q => p.1 < q.1) := by
  induction m with
  | nil => simp [Memory.write]
  | cons q m ih =>
    obtain ⟨c, u⟩ := q
    obtain ⟨hhead, htail⟩ := List.pairwise_cons.mp hm
    simp only [Memory.write]
    split
    · rename_i hlt
      refine List.pairwise_cons.mpr ⟨fun p hp => ?_, hm⟩
      rcases List.mem_cons.mp hp with rfl | hp
      · exact hlt
      · exact Nat.lt_trans hlt (hhead p hp)
    · split
      · rename_i _ heq
        subst heq
        exact List.pairwise_cons.mpr ⟨hhead, htail⟩
      · refine List.pairwise_cons.mpr ⟨fun p hp => ?_, ih htail⟩
        rcases Memory.mem_write hp with rfl | hp
        · show c < a; omega
        · exact hhead p hp

/-- A write at an address in range keeps the canonical form. -/
theorem Memory.write_wf {m : Memory} (hm : m.wf) {a : Nat} (ha : a < 2 ^ 32) (v : Word) : (m.write a v).wf :=
  ⟨Memory.write_sorted hm.1 a v, fun p hp => by
    rcases Memory.mem_write hp with rfl | hp
    · exact ha
    · exact hm.2 p hp⟩

/-- The memory after reset is canonical. -/
theorem reset_mem_wf : State.reset.mem.wf := by decide

@[simp] theorem memWrite_entry (S : State) (a b : Nat) (v : Word) :
    (memWrite S a v).entry b = if b = a then some v else S.entry b :=
  Memory.read?_write S.mem a b v

@[simp] theorem memWrite_pc (S : State) (a : Nat) (v : Word) : (memWrite S a v).pc = S.pc := rfl
@[simp] theorem memWrite_hi (S : State) (a : Nat) (v : Word) : (memWrite S a v).hi = S.hi := rfl
@[simp] theorem memWrite_lo (S : State) (a : Nat) (v : Word) : (memWrite S a v).lo = S.lo := rfl
@[simp] theorem memWrite_reg (S : State) (a : Nat) (v : Word) (r : Reg) : (memWrite S a v).reg r = S.reg r := rfl
@[simp] theorem memWrite_mem (S : State) (a : Nat) (v : Word) : (memWrite S a v).mem = S.mem.write a v := rfl
@[simp] theorem memWrite_status (S : State) (a : Nat) (v : Word) : (memWrite S a v).status = S.status := rfl
@[simp] theorem memWrite_cfg (S : State) (a : Nat) (v : Word) : (memWrite S a v).cfg = S.cfg := rfl

end Sys2Proof.Machine
end

