-- ==== Sys2Proof/Laws/Ops.lean ====
section
/-! SUPPORT. What each shared operation can do, said once: the frame of a variant, a raise, a memory read, the data
address, and the start of a step. -/

namespace Sys2Proof.Machine

/-! ### Taking a fault and halting -/

@[simp] theorem takeFault_status (k : Fault) (S : State) : (takeFault k S).status = .faulted k := rfl
@[simp] theorem takeFault_pc (k : Fault) (S : State) : (takeFault k S).pc = S.pc := rfl
@[simp] theorem takeFault_hi (k : Fault) (S : State) : (takeFault k S).hi = S.hi := rfl
@[simp] theorem takeFault_lo (k : Fault) (S : State) : (takeFault k S).lo = S.lo := rfl
@[simp] theorem takeFault_reg (k : Fault) (S : State) (r : Reg) : (takeFault k S).reg r = S.reg r := rfl
@[simp] theorem takeFault_mem (k : Fault) (S : State) : (takeFault k S).mem = S.mem := rfl
@[simp] theorem takeFault_entry (k : Fault) (S : State) (a : Nat) : (takeFault k S).entry a = S.entry a := rfl
@[simp] theorem takeFault_cfg (k : Fault) (S : State) : (takeFault k S).cfg = S.cfg := rfl

/-! ### The frame of a variant -/

/-- A rule that completes: its writes, made on the advanced PC, are the next state. -/
theorem inFrame_ok {S T : State} {rule : State → Except Fault State} (h : rule (S.setPc (nextPc S.pc)) = .ok T) :
    inFrame S rule = .next T := by simp [inFrame, h]

/-- A rule that raises: the state of before the step, faulted. -/
theorem inFrame_error {S : State} {k : Fault} {rule : State → Except Fault State}
    (h : rule (S.setPc (nextPc S.pc)) = .error k) : inFrame S rule = .next (takeFault k S) := by simp [inFrame, h]

/-- Everything the frame can do: it answers a next state, the rule's own or the faulted one. -/
theorem inFrame_cases {S T : State} {rule : State → Except Fault State} (h : inFrame S rule = .next T) :
    rule (S.setPc (nextPc S.pc)) = .ok T ∨
      ∃ k, rule (S.setPc (nextPc S.pc)) = .error k ∧ T = takeFault k S := by
  simp only [inFrame] at h
  split at h
  · rename_i T' hT
    cases h
    exact .inl hT
  · rename_i k hk
    cases h
    exact .inr ⟨k, hk, rfl⟩

theorem inFrame_next (S : State) (rule : State → Except Fault State) : ∃ T, inFrame S rule = .next T := by
  simp only [inFrame]
  split <;> exact ⟨_, rfl⟩

/-- The one thing an unsupported variant does. -/
@[simp] theorem unsupported_eq (i : Instr) (S : State) :
    unsupported i S = .next (takeFault (.unsupportedInstruction (encode i)) S) := rfl

/-! ### Memory reads and data addresses -/

theorem memRead_some {S : State} {a : Nat} {v : Word} (h : S.entry a = some v) : memRead S a = .ok v := by
  simp [memRead, h]

theorem memRead_none {S : State} {a : Nat} (h : S.entry a = none) :
    memRead S a = .error (.uninitializedMemoryRead a) := by simp [memRead, h]

theorem memRead_ok {S : State} {a : Nat} {v : Word} (h : memRead S a = .ok v) : S.entry a = some v := by
  simp only [memRead] at h
  split at h
  · rename_i u hu
    cases h
    exact hu
  · cases h

@[simp] theorem memRead_setPc (S : State) (v : Word) (a : Nat) : memRead (S.setPc v) a = memRead S a := rfl

@[simp] theorem effectiveAddress_setPc (S : State) (v : Word) (s : Reg) (i : BitVec 16) :
    effectiveAddress (S.setPc v) s i = effectiveAddress S s i := rfl

@[simp] theorem dataAddress_setPc (S : State) (v : Word) (s : Reg) (i : BitVec 16) :
    dataAddress (S.setPc v) s i = dataAddress S s i := rfl

theorem dataAddress_in {S : State} {s : Reg} {i : BitVec 16} (h : addressInRange (effectiveAddress S s i)) :
    dataAddress S s i = .ok (effectiveAddress S s i).toNat := if_pos h

theorem dataAddress_out {S : State} {s : Reg} {i : BitVec 16} (h : ¬ addressInRange (effectiveAddress S s i)) :
    dataAddress S s i = .error (.invalidAddress (effectiveAddress S s i)) := if_neg h

/-- A data address is the effective address, and it is an address. -/
theorem dataAddress_ok {S : State} {s : Reg} {i : BitVec 16} {a : Nat} (h : dataAddress S s i = .ok a) :
    addressInRange (effectiveAddress S s i) ∧ a = (effectiveAddress S s i).toNat ∧ a < 2 ^ 32 := by
  simp only [dataAddress] at h
  split at h
  · rename_i hr
    cases h
    refine ⟨hr, rfl, ?_⟩
    obtain ⟨h0, h1⟩ := hr
    omega
  · cases h

/-! ### What each executing variant does, as one equation -/

theorem execAdd_eq (d s t : Reg) (S : State) :
    execAdd d s t S = .next ((S.setPc (nextPc S.pc)).setReg d (aluAdd (S.reg s) (S.reg t))) := rfl

theorem execSub_eq (d s t : Reg) (S : State) :
    execSub d s t S = .next ((S.setPc (nextPc S.pc)).setReg d (aluSub (S.reg s) (S.reg t))) := rfl

theorem execMult_eq (s t : Reg) (S : State) :
    execMult s t S = .next ((S.setPc (nextPc S.pc)).setHiLo (productHi (signedProduct (S.reg s) (S.reg t)))
      (productLo (signedProduct (S.reg s) (S.reg t)))) := rfl

theorem execMultu_eq (s t : Reg) (S : State) :
    execMultu s t S = .next ((S.setPc (nextPc S.pc)).setHiLo (productHi (unsignedProduct (S.reg s) (S.reg t)))
      (productLo (unsignedProduct (S.reg s) (S.reg t)))) := rfl

theorem execJr_eq (s : Reg) (S : State) : execJr s S = .next (S.setPc (S.reg s)) := rfl

theorem execJalr_eq (s : Reg) (S : State) :
    execJalr s S = .next ((S.setReg 31 (nextPc S.pc)).setPc (S.reg s)) := rfl

theorem execUnknown_eq (w : Word) (S : State) :
    execUnknown w S = .next (takeFault (.unknownInstruction w) S) := rfl

theorem execLis_some {d : Reg} {S : State} {v : Word} (h : S.entry (uint (nextPc S.pc)) = some v) :
    execLis d S = .next ((S.setReg d v).setPc (nextPc (nextPc S.pc))) :=
  inFrame_ok (by rw [memRead_setPc, State.setPc_pc, memRead_some h]; rfl)

theorem execLis_none {d : Reg} {S : State} (h : S.entry (uint (nextPc S.pc)) = none) :
    execLis d S = .next (takeFault (.uninitializedMemoryRead (uint (nextPc S.pc))) S) :=
  inFrame_error (by rw [memRead_setPc, State.setPc_pc, memRead_none h]; rfl)

theorem execLw_some {t s : Reg} {i : BitVec 16} {S : State} {v : Word}
    (hr : addressInRange (effectiveAddress S s i)) (h : S.entry (effectiveAddress S s i).toNat = some v) :
    execLw t s i S = .next ((S.setPc (nextPc S.pc)).setReg t v) :=
  inFrame_ok (by
    rw [dataAddress_setPc, dataAddress_in hr]
    show (memRead _ _ >>= _) = _
    rw [memRead_setPc, memRead_some h]
    rfl)

theorem execLw_none {t s : Reg} {i : BitVec 16} {S : State}
    (hr : addressInRange (effectiveAddress S s i)) (h : S.entry (effectiveAddress S s i).toNat = none) :
    execLw t s i S = .next (takeFault (.uninitializedMemoryRead (effectiveAddress S s i).toNat) S) :=
  inFrame_error (by
    rw [dataAddress_setPc, dataAddress_in hr]
    show (memRead _ _ >>= _) = _
    rw [memRead_setPc, memRead_none h]
    rfl)

theorem execLw_out {t s : Reg} {i : BitVec 16} {S : State} (hr : ¬ addressInRange (effectiveAddress S s i)) :
    execLw t s i S = .next (takeFault (.invalidAddress (effectiveAddress S s i)) S) :=
  inFrame_error (by rw [dataAddress_setPc, dataAddress_out hr]; rfl)

theorem execSw_in {t s : Reg} {i : BitVec 16} {S : State} (hr : addressInRange (effectiveAddress S s i)) :
    execSw t s i S = .next (memWrite (S.setPc (nextPc S.pc)) (effectiveAddress S s i).toNat (S.reg t)) :=
  inFrame_ok (by rw [dataAddress_setPc, dataAddress_in hr]; rfl)

theorem execSw_out {t s : Reg} {i : BitVec 16} {S : State} (hr : ¬ addressInRange (effectiveAddress S s i)) :
    execSw t s i S = .next (takeFault (.invalidAddress (effectiveAddress S s i)) S) :=
  inFrame_error (by rw [dataAddress_setPc, dataAddress_out hr]; rfl)

/-! ### The start of a step -/

theorem startStep_terminal {S : State} (h : S.status ≠ .running) : startStep S = .done S := by
  simp only [startStep]
  split
  · rfl
  · rfl
  · rename_i hr
    exact absurd hr h

theorem startStep_sentinel {S : State} (h : S.status = .running) (hs : S.pc = S.cfg.sentinel) :
    startStep S = .done (takeHalt S) := by simp [startStep, h, hs]

theorem startStep_misaligned {S : State} (h : S.status = .running) (hs : S.pc ≠ S.cfg.sentinel)
    (ha : uint S.pc % 4 ≠ 0) : startStep S = .done (takeFault (.misalignedFetch S.pc) S) := by
  simp [startStep, h, hs, fetch, pcAligned, ha]

theorem startStep_absent {S : State} (h : S.status = .running) (hs : S.pc ≠ S.cfg.sentinel)
    (ha : uint S.pc % 4 = 0) (he : S.entry (uint S.pc) = none) :
    startStep S = .done (takeFault (.uninitializedMemoryRead (uint S.pc)) S) := by
  simp [startStep, h, hs, fetch, pcAligned, ha, memRead_none he]

theorem startStep_fetched {S : State} {w : Word} (h : S.status = .running) (hs : S.pc ≠ S.cfg.sentinel)
    (ha : uint S.pc % 4 = 0) (he : S.entry (uint S.pc) = some w) : startStep S = .execute w := by
  simp [startStep, h, hs, fetch, pcAligned, ha, memRead_some he]

theorem step_done {S T : State} (h : startStep S = .done T) : step S = .next T := by simp [step, h]

theorem step_execute {S : State} {w : Word} (h : startStep S = .execute w) : step S = exec (decode w) S := by
  simp [step, h]

end Sys2Proof.Machine
end

