-- ==== Sys2Proof/Laws/PerInstr.lean ====
section
/-! SUPPORT. Statements made for each instruction, one lemma per constructor: the fields of an instruction's encoded
word are its operands (30_encoding.md R53 to R55). -/

namespace Sys2Proof.Laws

/-- The fields of a register-format word are `op = 0`, `s`, `t`, `d`, `sa = 0` and `fn` (30_encoding.md R54). -/
def HasFieldsR (w : Word) (s t d : Reg) (fn : BitVec 6) : Prop :=
  fieldOp w = 0 ∧ fieldS w = s ∧ fieldT w = t ∧ fieldD w = d ∧ fieldSa w = 0 ∧ fieldFn w = fn

/-- The fields of an immediate-format word are `op`, `s`, `t` and `i` (30_encoding.md R55). -/
def HasFieldsI (w : Word) (op : BitVec 6) (s t : Reg) (i : BitVec 16) : Prop :=
  fieldOp w = op ∧ fieldS w = s ∧ fieldT w = t ∧ fieldI w = i

/-- The fields a register-format word is built from. -/
theorem encodeR_fields (s t d : Reg) (fn : BitVec 6) :
    HasFieldsR (encodeR s t d fn) s t d fn := by
  have ext5 (r : Reg) (v : BitVec 5) (h : v = BitVec.ofFin r) : v.toFin = r := by subst h; rfl
  refine ⟨?_, ext5 _ _ ?_, ext5 _ _ ?_, ext5 _ _ ?_, ?_, ?_⟩ <;>
    · simp only [fieldOp, fieldSa, fieldFn, encodeR]
      ext i hi
      simp only [BitVec.getElem_extractLsb', BitVec.getLsbD_append]
      interval_cases i <;> simp [BitVec.getLsbD_eq_getElem]

/-- The fields an immediate-format word is built from. -/
theorem encodeI_fields (op : BitVec 6) (s t : Reg) (i : BitVec 16) :
    HasFieldsI (encodeI op s t i) op s t i := by
  have ext5 (r : Reg) (v : BitVec 5) (h : v = BitVec.ofFin r) : v.toFin = r := by subst h; rfl
  refine ⟨?_, ext5 _ _ ?_, ext5 _ _ ?_, ?_⟩ <;>
    · simp only [fieldOp, fieldI, encodeI]
      ext k hk
      simp only [BitVec.getElem_extractLsb', BitVec.getLsbD_append]
      interval_cases k <;> simp [BitVec.getLsbD_eq_getElem]

namespace FieldsOfEncode

/-- The opcode, the function code and the operands of an instruction stand in its word where 30_encoding.md R53 puts
them, and the register fields it does not use are zero (R60). -/
def Statement : Instr → Prop
  | .add d s t => HasFieldsR (encode (.add d s t)) s t d 0b100000
  | .sub d s t => HasFieldsR (encode (.sub d s t)) s t d 0b100010
  | .mult s t => HasFieldsR (encode (.mult s t)) s t 0 0b011000
  | .multu s t => HasFieldsR (encode (.multu s t)) s t 0 0b011001
  | .div s t => HasFieldsR (encode (.div s t)) s t 0 0b011010
  | .divu s t => HasFieldsR (encode (.divu s t)) s t 0 0b011011
  | .mfhi d => HasFieldsR (encode (.mfhi d)) 0 0 d 0b010000
  | .mflo d => HasFieldsR (encode (.mflo d)) 0 0 d 0b010010
  | .lis d => HasFieldsR (encode (.lis d)) 0 0 d 0b010100
  | .lw t s i => HasFieldsI (encode (.lw t s i)) 0b100011 s t i
  | .sw t s i => HasFieldsI (encode (.sw t s i)) 0b101011 s t i
  | .slt d s t => HasFieldsR (encode (.slt d s t)) s t d 0b101010
  | .sltu d s t => HasFieldsR (encode (.sltu d s t)) s t d 0b101011
  | .beq s t i => HasFieldsI (encode (.beq s t i)) 0b000100 s t i
  | .bne s t i => HasFieldsI (encode (.bne s t i)) 0b000101 s t i
  | .jr s => HasFieldsR (encode (.jr s)) s 0 0 0b001000
  | .jalr s => HasFieldsR (encode (.jalr s)) s 0 0 0b001001
  | .unknown w => (Instr.unknown w).wellFormed = true → recognizedByFields (encode (.unknown w)) = false

theorem add (d s t : Reg) : Statement (.add d s t) := encodeR_fields s t d _
theorem sub (d s t : Reg) : Statement (.sub d s t) := encodeR_fields s t d _
theorem mult (s t : Reg) : Statement (.mult s t) := encodeR_fields s t 0 _
theorem multu (s t : Reg) : Statement (.multu s t) := encodeR_fields s t 0 _
theorem div (s t : Reg) : Statement (.div s t) := encodeR_fields s t 0 _
theorem divu (s t : Reg) : Statement (.divu s t) := encodeR_fields s t 0 _
theorem mfhi (d : Reg) : Statement (.mfhi d) := encodeR_fields 0 0 d _
theorem mflo (d : Reg) : Statement (.mflo d) := encodeR_fields 0 0 d _
theorem lis (d : Reg) : Statement (.lis d) := encodeR_fields 0 0 d _
theorem lw (t s : Reg) (i : BitVec 16) : Statement (.lw t s i) := encodeI_fields _ s t i
theorem sw (t s : Reg) (i : BitVec 16) : Statement (.sw t s i) := encodeI_fields _ s t i
theorem slt (d s t : Reg) : Statement (.slt d s t) := encodeR_fields s t d _
theorem sltu (d s t : Reg) : Statement (.sltu d s t) := encodeR_fields s t d _
theorem beq (s t : Reg) (i : BitVec 16) : Statement (.beq s t i) := encodeI_fields _ s t i
theorem bne (s t : Reg) (i : BitVec 16) : Statement (.bne s t i) := encodeI_fields _ s t i
theorem jr (s : Reg) : Statement (.jr s) := encodeR_fields s 0 0 _
theorem jalr (s : Reg) : Statement (.jalr s) := encodeR_fields s 0 0 _
theorem unknown (w : Word) : Statement (.unknown w) := fun h => by
  simpa [Instr.wellFormed, encode] using h

end FieldsOfEncode

end Sys2Proof.Laws
end

