-- ==== Sys2Proof/Laws/Step.lean ====
section
/-! SUPPORT. What an instruction and a step can do, said once. -/

namespace Sys2Proof.Machine

/-- Everything an instruction can do to the run status and the parameters: it completes and leaves both, or it takes
one fault and changes the run status only (40_execution_cycle.md R76; 60_exceptions.md R108). -/
theorem exec_cases (i : Instr) (S : State) :
    (∃ T, exec i S = .next T ∧ T.status = S.status ∧ T.cfg = S.cfg) ∨ ∃ k, exec i S = .next (takeFault k S) := by
  cases i with
  | add d s t => exact .inl ⟨_, execAdd_eq d s t S, rfl, rfl⟩
  | sub d s t => exact .inl ⟨_, execSub_eq d s t S, rfl, rfl⟩
  | mult s t => exact .inl ⟨_, execMult_eq s t S, rfl, rfl⟩
  | multu s t => exact .inl ⟨_, execMultu_eq s t S, rfl, rfl⟩
  | jr s => exact .inl ⟨_, execJr_eq s S, rfl, rfl⟩
  | jalr s => exact .inl ⟨_, execJalr_eq s S, rfl, rfl⟩
  | lis d =>
    cases h : S.entry (uint (nextPc S.pc)) with
    | none => exact .inr ⟨_, execLis_none h⟩
    | some v => exact .inl ⟨_, execLis_some h, rfl, rfl⟩
  | lw t s i =>
    by_cases hr : addressInRange (effectiveAddress S s i)
    · cases h : S.entry (effectiveAddress S s i).toNat with
      | none => exact .inr ⟨_, execLw_none hr h⟩
      | some v => exact .inl ⟨_, execLw_some hr h, rfl, rfl⟩
    · exact .inr ⟨_, execLw_out hr⟩
  | sw t s i =>
    by_cases hr : addressInRange (effectiveAddress S s i)
    · exact .inl ⟨_, execSw_in hr, rfl, rfl⟩
    · exact .inr ⟨_, execSw_out hr⟩
  | div s t => exact .inr ⟨_, rfl⟩
  | divu s t => exact .inr ⟨_, rfl⟩
  | mfhi d => exact .inr ⟨_, rfl⟩
  | mflo d => exact .inr ⟨_, rfl⟩
  | slt d s t => exact .inr ⟨_, rfl⟩
  | sltu d s t => exact .inr ⟨_, rfl⟩
  | beq s t i => exact .inr ⟨_, rfl⟩
  | bne s t i => exact .inr ⟨_, rfl⟩
  | unknown w => exact .inr ⟨_, rfl⟩

/-- Everything a step can do: a terminal state stays; a running one halts at `SENTINEL`, takes one fault elsewhere, or
completes the instruction it fetches (40_execution_cycle.md R68). -/
theorem step_cases (S : State) :
    (S.status ≠ .running ∧ step S = .next S) ∨
    (S.status = .running ∧ S.pc = S.cfg.sentinel ∧ step S = .next (takeHalt S)) ∨
    (S.status = .running ∧ S.pc ≠ S.cfg.sentinel ∧ ∃ k, step S = .next (takeFault k S)) ∨
    (∃ w T, Fetches S w ∧ step S = .next T ∧ exec (decode w) S = .next T ∧ T.status = .running ∧ T.cfg = S.cfg) := by
  by_cases hr : S.status = .running
  · by_cases hs : S.pc = S.cfg.sentinel
    · exact .inr (.inl ⟨hr, hs, step_done (startStep_sentinel hr hs)⟩)
    · by_cases ha : uint S.pc % 4 = 0
      · cases he : S.entry (uint S.pc) with
        | none => exact .inr (.inr (.inl ⟨hr, hs, _, step_done (startStep_absent hr hs ha he)⟩))
        | some w =>
          have hstep := step_execute (startStep_fetched hr hs ha he)
          rcases exec_cases (decode w) S with ⟨T, hT, h1, h2⟩ | ⟨k, hk⟩
          · exact .inr (.inr (.inr ⟨w, T, ⟨hr, hs, ha, he⟩, hstep.trans hT, hT, h1.trans hr, h2⟩))
          · exact .inr (.inr (.inl ⟨hr, hs, k, hstep.trans hk⟩))
      · exact .inr (.inr (.inl ⟨hr, hs, _, step_done (startStep_misaligned hr hs ha)⟩))
  · exact .inl ⟨hr, step_done (startStep_terminal hr)⟩

end Sys2Proof.Machine
end

