-- ==== Sys2Proof/Tests/Slice0.lean ====
section
/-! SUPPORT. The model's own tests: words written out from the spec's encodings, one step on small states with the
results of 95_test_vectors.md, and for every statement with hypotheses a concrete state and operands that meet them. -/

namespace Sys2Proof.Tests

open Sys2Proof.Machine

/-! ### Helpers -/

/-- The next state of an outcome. -/
def nextOf : Host.Outcome State Fault Refusal → Option State
  | .next T => some T
  | .fault _ => none
  | .refused _ => none

/-- A running state at PC 0 with some registers, every other one 0, and some memory. -/
def small (regs : List (Reg × Word)) (mem : Memory) : State :=
  regs.foldl (fun S p => S.setReg p.1 p.2) { launchState Config.suggested 0 0 [] with mem := mem }

/-- A field of the state an instruction leaves. -/
def after {α : Type} (i : Instr) (S : State) (f : State → α) : Option α := (nextOf (exec i S)).map f

/-! ### Decoding, by words from 95_test_vectors.md section 2.2 -/

theorem test_decode_add : decode 0b00000000001000100001100000100000 = .add 3 1 2 := by decide
theorem test_decode_sub : decode 0b00000000001000100001100000100010 = .sub 3 1 2 := by decide
theorem test_decode_mult : decode 0b00000011111111110000000000011000 = .mult 31 31 := by decide
theorem test_decode_multu : decode 0b00000000001000100000000000011001 = .multu 1 2 := by decide
theorem test_decode_div : decode 0b00000000001000100000000000011010 = .div 1 2 := by decide
theorem test_decode_divu : decode 0b00000000001000100000000000011011 = .divu 1 2 := by decide
theorem test_decode_mfhi : decode 0b00000000000000000001100000010000 = .mfhi 3 := by decide
theorem test_decode_mflo : decode 0b00000000000000000001100000010010 = .mflo 3 := by decide
theorem test_decode_lis : decode 0b00000000000000001111100000010100 = .lis 31 := by decide
theorem test_decode_lw : decode 0b10001100100001011111111111111100 = .lw 5 4 0xFFFC := by decide
theorem test_decode_sw : decode 0b10101100100000010000000000000000 = .sw 1 4 0 := by decide
theorem test_decode_slt : decode 0b00000000001000100001100000101010 = .slt 3 1 2 := by decide
theorem test_decode_sltu : decode 0b00000000001000100001100000101011 = .sltu 3 1 2 := by decide
theorem test_decode_beq : decode 0b00010000001000100000000000000001 = .beq 1 2 1 := by decide
theorem test_decode_bne : decode 0b00010100001000101111111111111111 = .bne 1 2 0xFFFF := by decide
theorem test_decode_jr : decode 0b00000011111000000000000000001000 = .jr 31 := by decide
theorem test_decode_jalr : decode 0b00000000101000000000000000001001 = .jalr 5 := by decide
theorem test_decode_all_zero : decode 0 = .unknown 0 := by decide

/-- Vectors X17 to X26: words next to a recognized one, all `Unknown`. -/
theorem test_decode_near_misses :
    ([0x00000001, 0xFFFFFFFF, 0x00221860, 0x00221821, 0x00221824, 0x00221838, 0x00220818, 0x00230014, 0x00011814,
      0x00A10008, 0x00A000C8, 0x00A0F809, 0x20230005, 0x08000000, 0x0C000000, 0x80000000, 0xA0000000, 0xFFE0F820,
      0x0000000C] : List Word).all (fun w => decode w == .unknown w) = true := by decide

/-- Each encoder pattern at distinct operands, against the words of the vectors. -/
theorem test_encode_words :
    [encode (.add 3 1 2), encode (.lw 5 4 0xFFFC), encode (.sw 1 4 0), encode (.jr 31), encode (.jalr 5),
      encode (.lis 3), encode (.mult 1 2), encode (.bne 1 2 0xFFFF)] =
    [0x00221820, 0x8C85FFFC, 0xAC810000, 0x03E00008, 0x00A00009, 0x00001814, 0x00220018, 0x1422FFFF] := by decide

/-- The check of `wellFormed` refuses a recognized word under `unknown`, and accepts an unrecognized one. -/
theorem smoke_unknown_ill_formed : (Instr.unknown 0x00221820).wellFormed = false := by decide
theorem smoke_unknown_ill_formed_immediate : (Instr.unknown 0x8C000000).wellFormed = false := by decide
theorem smoke_unknown_well_formed : (Instr.unknown 0x00221860).wellFormed = true := by decide

/-! ### One step of each instruction (95_test_vectors.md sections 2.3 to 2.8) -/

/-- Vectors A2 and A7. -/
theorem test_add_no_trap : after (.add 3 1 2) (small [(1, 0x7FFFFFFF), (2, 1)] []) (fun T => (T.reg 3, T.pc)) =
    some (0x80000000, 4) := by decide
theorem test_add_register_zero : after (.add 0 1 2) (small [(1, 1), (2, 2)] []) (fun T => T.reg 0) = some 3 := by decide

/-- Vectors A8 and A12. -/
theorem test_sub_wraps : after (.sub 3 1 2) (small [(1, 1), (2, 2)] []) (fun T => T.reg 3) = some 0xFFFFFFFF := by decide
theorem test_sub_destination_is_source : after (.sub 2 1 2) (small [(1, 10), (2, 3)] []) (fun T => T.reg 2) =
    some 7 := by decide

/-- Vectors M2 and M7. -/
theorem test_mult_negative : after (.mult 1 2) (small [(1, 0xFFFFFFFE), (2, 3)] []) (fun T => (T.hi, T.lo)) =
    some (0xFFFFFFFF, 0xFFFFFFFA) := by decide
theorem test_mult_extremes : after (.mult 1 2) (small [(1, 0x80000000), (2, 0x7FFFFFFF)] []) (fun T => (T.hi, T.lo)) =
    some (0xC0000000, 0x80000000) := by decide

/-- Vectors M10 and M13. -/
theorem test_multu_largest : after (.multu 1 2) (small [(1, 0xFFFFFFFF), (2, 0xFFFFFFFF)] []) (fun T => (T.hi, T.lo)) =
    some (0xFFFFFFFE, 0x00000001) := by decide
theorem test_multu_mixed : after (.multu 1 2) (small [(1, 0xFFFFFFFE), (2, 3)] []) (fun T => (T.hi, T.lo)) =
    some (0x00000002, 0xFFFFFFFA) := by decide

/-- Vectors M16 to M19 and B1 to B4: the kind and the word recorded, and the PC kept. -/
theorem test_div_faults : after (.div 1 2) (small [(1, 7)] []) (fun T => (T.status, T.pc)) =
    some (.faulted (.unsupportedInstruction 0x0022001A), 0) := by decide
theorem test_divu_faults : after (.divu 1 2) (small [(1, 7), (2, 2)] []) (fun T => T.status) =
    some (.faulted (.unsupportedInstruction 0x0022001B)) := by decide
theorem test_mfhi_faults : after (.mfhi 3) ((small [] []).setHiLo 5 0) (fun T => (T.status, T.reg 3)) =
    some (.faulted (.unsupportedInstruction 0x00001810), 0) := by decide
theorem test_mflo_faults : after (.mflo 3) ((small [] []).setHiLo 0 5) (fun T => (T.status, T.reg 3)) =
    some (.faulted (.unsupportedInstruction 0x00001812), 0) := by decide
theorem test_slt_faults : after (.slt 3 1 2) (small [(1, 1), (2, 2)] []) (fun T => (T.status, T.reg 3)) =
    some (.faulted (.unsupportedInstruction 0x0022182A), 0) := by decide
theorem test_sltu_faults : after (.sltu 3 1 2) (small [(1, 1), (2, 2)] []) (fun T => T.status) =
    some (.faulted (.unsupportedInstruction 0x0022182B)) := by decide
theorem test_beq_faults : after (.beq 1 2 1) (small [(1, 1), (2, 1)] []) (fun T => (T.status, T.pc)) =
    some (.faulted (.unsupportedInstruction 0x10220001), 0) := by decide
theorem test_bne_faults : after (.bne 1 2 0xFFFF) (small [(1, 1), (2, 2)] []) (fun T => (T.status, T.pc)) =
    some (.faulted (.unsupportedInstruction 0x1422FFFF), 0) := by decide

/-- Vectors S2 and S6. -/
theorem test_lis_absent : after (.lis 3) (small [] [(0, 0x00001814)]) (fun T => (T.status, T.pc)) =
    some (.faulted (.uninitializedMemoryRead 4), 0) := by decide
theorem test_lis_wraps : after (.lis 7) ((small [] [(0, 0x1234)]).setPc 0xFFFFFFFC) (fun T => (T.reg 7, T.pc)) =
    some (0x1234, 4) := by decide

/-- Vectors S10 and S12. -/
theorem test_lw_unaligned_key : after (.lw 5 4 1) (small [(4, 0x100)] [(0x100, 1), (0x101, 2)]) (fun T => T.reg 5) =
    some 2 := by decide
theorem test_lw_past_the_top : after (.lw 5 4 4) (small [(4, 0xFFFFFFFC)] []) (fun T => (T.status, T.pc)) =
    some (.faulted (.invalidAddress 4294967296), 0) := by decide

/-- Vectors S17 and S19. -/
theorem test_sw_unaligned_key : after (.sw 1 4 2) (small [(1, 0x22222222), (4, 0x100)] [(0x100, 0x11111111)])
    (fun T => T.mem) = some [(0x100, 0x11111111), (0x102, 0x22222222)] := by decide
theorem test_sw_below_zero : after (.sw 1 0 0xFFFF) (small [(1, 5)] []) (fun T => (T.status, T.mem)) =
    some (.faulted (.invalidAddress (-1)), []) := by decide

/-- Vector J2, first step. -/
theorem test_jr_checks_nothing : after (.jr 5) (small [(5, 6)] []) (fun T => (T.pc, T.status)) = some (6, .running) := by
  decide

/-- Vectors J5 and J6. -/
theorem test_jalr_of_the_link : after (.jalr 31) ((small [(31, 0x40)] []).setPc 0x14) (fun T => (T.reg 31, T.pc)) =
    some (0x18, 0x40) := by decide
theorem test_jalr_link_wraps : after (.jalr 5) ((small [(5, 0x100)] []).setPc 0xFFFFFFFC) (fun T => (T.reg 31, T.pc)) =
    some (0, 0x100) := by decide

/-- Vector U2 through the step, and vectors T1 and T3. -/
theorem test_step_all_zero_word : (stepState (small [] [(0, 0)])).status = .faulted (.unknownInstruction 0) := by decide
theorem test_step_misaligned : stepOutcome ((small [] [(6, 0x00221820)]).setPc 6) = .faulted (.misalignedFetch 6) := by
  decide
theorem test_step_at_sentinel : stepOutcome ((small [] []).setPc 0x8123456C) = .halted := by decide

/-- An instruction placed after reset is the one the next step runs, a two-word `Lis` with its data word. -/
theorem test_placed_lis : ((stepState (State.reset.withFetchWord 64 0x0000000500001814)).reg 3,
    (stepState (State.reset.withFetchWord 64 0x0000000500001814)).pc) = (5, 8) := by decide
theorem test_placed_add : (stepState (State.reset.withFetchWord 32 0x00221820)).reg 3 = 3 := by decide

/-! ### Codec, program text and Trace -/

/-- Vectors W2, W3 and W5. -/
theorem test_encode_wraps : encodeBits (2 ^ 32 + 5) = encodeBits 5 ∧ encodeBits (-1) = List.replicate 32 '1' := by decide
theorem test_encode_narrow : encodeBits 5 8 = ['0', '0', '0', '0', '0', '1', '0', '1'] := by decide

/-- Vectors W7 and W8. -/
theorem test_decode_signed : decodeSigned ('1' :: List.replicate 31 '0') = some (-2147483648) := by decide
theorem test_decode_refused : decodeUnsigned ['1', '0', '1'] = none := by decide

/-- Program P8 with a step limit of 2: three entries. -/
theorem test_trace_of_a_loop :
    ((runTraced 2 (launchState Config.suggested 1 2 [0x00002814, 8, 0x00A00008])).1.length,
      (runTraced 2 (launchState Config.suggested 1 2 [0x00002814, 8, 0x00A00008])).2) = (3, .stepLimitExceeded) := by
  decide

/-! ### Witnesses: for each statement with hypotheses, a state and operands that meet them all -/

/-- A program's state after a launch with the default inputs. -/
def launched (program : List Word) : State := launchState Config.suggested 1 2 program

/-- The same, some steps on. -/
def launchedAfter (program : List Word) (n : Nat) : State := stepsState n (launched program)

theorem fetches_of {S : State} {w : Word} (h : S.status = .running ∧ S.pc ≠ S.cfg.sentinel ∧ uint S.pc % 4 = 0 ∧
    S.entry (uint S.pc) = some w) : Fetches S w := h

theorem witness_TableRowsDecode_catch_all : ∀ r ∈ decodeTable, (0x00000001 : Word) &&& r.mask ≠ r.pattern := by decide
theorem witness_TableRowsDecode_first_and_last :
    (0x00221820 : Word) &&& 0xFC0007FF = 0x00000020 ∧ (0x03E00009 : Word) &&& 0xFC1FFFFF = 0x00000009 ∧
    (0x8FFFFFFF : Word) &&& 0xFC000000 = 0x8C000000 := by decide
theorem witness_TableRowsDecode_register_rows :
    (0x00221822 : Word) &&& 0xFC0007FF = 0x22 ∧ (0x00220018 : Word) &&& 0xFC00FFFF = 0x18 ∧
    (0x00220019 : Word) &&& 0xFC00FFFF = 0x19 ∧ (0x0022001A : Word) &&& 0xFC00FFFF = 0x1A ∧
    (0x0022001B : Word) &&& 0xFC00FFFF = 0x1B ∧ (0x00001810 : Word) &&& 0xFFFF07FF = 0x10 ∧
    (0x00001812 : Word) &&& 0xFFFF07FF = 0x12 ∧ (0x0000F814 : Word) &&& 0xFFFF07FF = 0x14 := by decide
theorem witness_TableRowsDecode_other_rows :
    (0xAFFFFFFF : Word) &&& 0xFC000000 = 0xAC000000 ∧ (0x0022182A : Word) &&& 0xFC0007FF = 0x2A ∧
    (0x0022182B : Word) &&& 0xFC0007FF = 0x2B ∧ (0x10220001 : Word) &&& 0xFC000000 = 0x10000000 ∧
    (0x1422FFFF : Word) &&& 0xFC000000 = 0x14000000 ∧ (0x03E00008 : Word) &&& 0xFC1FFFFF = 0x08 := by decide

theorem witness_DecodeOfEncode : (Instr.lw 31 31 0xFFFF).wellFormed = true ∧ (Instr.unknown 0).wellFormed = true := by
  decide

theorem witness_RowsAreDisjointAndCounted : decodeTable.Perm decodeTable := List.Perm.refl _

theorem witness_UnknownWordsByFieldsFault : Fetches (launched [1]) 1 ∧ firstRow 1 = none := by
  refine ⟨fetches_of (by decide), ?_⟩
  rw [firstRow, List.find?_eq_none]
  decide

theorem witness_StepFollowsTheFrame_terminal : ((launched []).setStatus .halted).status ≠ .running := by decide
theorem witness_StepFollowsTheFrame_sentinel :
    ((launched []).setPc 0x8123456C).status = .running ∧
    ((launched []).setPc 0x8123456C).pc = ((launched []).setPc 0x8123456C).cfg.sentinel := by decide
theorem witness_StepFollowsTheFrame_misaligned :
    ((launched []).setPc 0xFFFFFFFF).status = .running ∧
    ((launched []).setPc 0xFFFFFFFF).pc ≠ ((launched []).setPc 0xFFFFFFFF).cfg.sentinel ∧
    uint ((launched []).setPc 0xFFFFFFFF).pc % 4 ≠ 0 := by decide
theorem witness_StepFollowsTheFrame_absent :
    (launched []).status = .running ∧ (launched []).pc ≠ (launched []).cfg.sentinel ∧ uint (launched []).pc % 4 = 0 ∧
    (launched []).entry (uint (launched []).pc) = none := by decide
theorem witness_StepFollowsTheFrame_fetched : Fetches (launched [0x00221820]) 0x00221820 := fetches_of (by decide)

theorem witness_StepRunsPlacedInstruction : decodeTableWord 64 0x0000000500001814 = some (.lis 3) := by decide

theorem witness_PcAfterCompletedStep :
    Fetches (launched [0x00001814, 5]) 0x00001814 ∧
    step (launched [0x00001814, 5]) = .next (launchedAfter [0x00001814, 5] 1) ∧
    (launchedAfter [0x00001814, 5] 1).status = .running := ⟨fetches_of (by decide), rfl, by decide⟩

theorem witness_RegisterZeroIsOrdinary_lis :
    (launched [0x00000014, 0xFFFFFFFF]).entry
      (uint (word ((uint (launched [0x00000014, 0xFFFFFFFF]).pc : Int) + 4))) = some 0xFFFFFFFF := by decide
theorem witness_RegisterZeroIsOrdinary_lw :
    0 ≤ effectiveAddress (launched [7]) 0 0 ∧ effectiveAddress (launched [7]) 0 0 < 2 ^ 32 ∧
    (launched [7]).entry (effectiveAddress (launched [7]) 0 0).toNat = some 7 := by decide

theorem witness_AluResultsIndependentOfReading :
    ∃ S T S' T' : State, S.reg 1 = T.reg 1 ∧ S.reg 2 = T.reg 2 ∧ S.reg 3 ≠ T.reg 3 ∧
      exec (.add 3 1 2) S = .next S' ∧ exec (.add 3 1 2) T = .next T' :=
  ⟨small [(1, 1), (2, 2)] [], small [(1, 1), (2, 2), (3, 0xDEADBEEF)] [], _, _, by decide, by decide, by decide, rfl, rfl⟩
theorem witness_AluResultsIndependentOfReading_sub :
    ∃ S T S' T' : State, S.reg 1 = T.reg 1 ∧ S.reg 2 = T.reg 2 ∧
      exec (.sub 3 1 2) S = .next S' ∧ exec (.sub 3 1 2) T = .next T' :=
  ⟨small [(2, 0x80000000)] [], small [(2, 0x80000000), (3, 9)] [], _, _, by decide, by decide, rfl, rfl⟩

theorem witness_ProductsAreExact :
    ∃ S T U : State, exec (.mult 1 2) S = .next T ∧ exec (.multu 1 2) S = .next U ∧ (S.reg 1).msb = true :=
  ⟨small [(1, 0x80000000), (2, 0x7FFFFFFF)] [], _, _, rfl, rfl, by decide⟩
theorem witness_HiWordsDifferByOperands :
    ∃ S T U : State, exec (.mult 1 2) S = .next T ∧ exec (.multu 1 2) S = .next U ∧ T.hi ≠ U.hi :=
  ⟨small [(1, 0xFFFFFFFE), (2, 3)] [], _, _, rfl, rfl, by decide⟩
/-- Vectors M5 and M14: the operands on which the sentence of 42_multiply_divide.md R82 fails. -/
theorem witness_HiWordsDifferExactlyOnBit31 :
    ∃ S T U : State, exec (.mult 1 2) S = .next T ∧ exec (.multu 1 2) S = .next U ∧ (S.reg 1).msb = true ∧
      T.hi = 0x40000000 ∧ U.hi = 0x40000000 :=
  ⟨small [(1, 0x80000000), (2, 0x80000000)] [], _, _, rfl, rfl, by decide, by decide, by decide⟩

theorem witness_UnsupportedVariantsFault :
    Instr.bne 1 2 0xFFFF ∈ [Instr.div 1 2, .divu 1 2, .mfhi 3, .mflo 3, .slt 3 1 2, .sltu 3 1 2, .beq 1 2 0xFFFF,
      .bne 1 2 0xFFFF] := by decide

theorem witness_RecordedWordIsTheFetchedOne_unsupported :
    Fetches (launched [0x0022001A]) 0x0022001A ∧ executes (decode 0x0022001A) = false :=
  ⟨fetches_of (by decide), by decide⟩
theorem witness_RecordedWordIsTheFetchedOne_unknown :
    Fetches (launched [0xFFFFFFFF]) 0xFFFFFFFF ∧ executes (decode 0xFFFFFFFF) = false :=
  ⟨fetches_of (by decide), by decide⟩

theorem witness_LisLoadsInlineWord_present :
    ((launched [0xABCD]).setPc 0xFFFFFFFC).entry (uint (word ((uint (0xFFFFFFFC : Word) : Int) + 4))) = some 0xABCD := by
  decide
theorem witness_LisLoadsInlineWord_absent :
    (launched [0x00001814]).entry (uint (word ((uint (launched [0x00001814]).pc : Int) + 4))) = none := by decide

theorem witness_LwLoadsEntry_top :
    0 ≤ effectiveAddress (small [(4, 0xFFFF8000)] [(0xFFFFFFFF, 9)]) 4 0x7FFF ∧
    effectiveAddress (small [(4, 0xFFFF8000)] [(0xFFFFFFFF, 9)]) 4 0x7FFF < 2 ^ 32 ∧
    (small [(4, 0xFFFF8000)] [(0xFFFFFFFF, 9)]).entry
      (effectiveAddress (small [(4, 0xFFFF8000)] [(0xFFFFFFFF, 9)]) 4 0x7FFF).toNat = some 9 := by decide
theorem witness_LwLoadsEntry_below : effectiveAddress (small [] []) 0 0xFFFF < 0 := by decide
theorem witness_LwLoadsEntry_above : 2 ^ 32 ≤ effectiveAddress (small [(4, 0xFFFFFFFC)] []) 4 4 := by decide
theorem witness_LwLoadsEntry_absent :
    0 ≤ effectiveAddress (small [] []) 4 0 ∧ effectiveAddress (small [] []) 4 0 < 2 ^ 32 ∧
    (small [] []).entry (effectiveAddress (small [] []) 4 0).toNat = none := by decide

theorem witness_SwStoresWord_in_range :
    0 ≤ effectiveAddress (small [(4, 0xFFFFFFFF)] []) 4 0 ∧
    effectiveAddress (small [(4, 0xFFFFFFFF)] []) 4 0 < 2 ^ 32 := by decide
theorem witness_SwStoresWord_out_of_range : 2 ^ 32 ≤ effectiveAddress (small [(4, 0xFFFFFFFF)] []) 4 1 := by decide

/-- `sw $1, 256($0)` then `lw $5, 256($0)`. -/
theorem witness_StoreThenLoadReturnsWord :
    Fetches (launched [0xAC010100, 0x8C050100]) 0xAC010100 ∧ decode 0xAC010100 = .sw 1 0 0x100 ∧
    step (launched [0xAC010100, 0x8C050100]) = .next (launchedAfter [0xAC010100, 0x8C050100] 1) ∧
    (launchedAfter [0xAC010100, 0x8C050100] 1).status = .running ∧
    Fetches (launchedAfter [0xAC010100, 0x8C050100] 1) 0x8C050100 ∧ decode 0x8C050100 = .lw 5 0 0x100 :=
  ⟨fetches_of (by decide), by decide, rfl, by decide, fetches_of (by decide), by decide⟩

/-- `sw $1, 4($0)`: the store is to the next instruction's address. -/
theorem witness_StoreIsSeenByNextFetch_code :
    Fetches (launched [0xAC010004]) 0xAC010004 ∧ decode 0xAC010004 = .sw 1 0 4 ∧
    step (launched [0xAC010004]) = .next (launchedAfter [0xAC010004] 1) ∧
    (launchedAfter [0xAC010004] 1).status = .running ∧
    (launchedAfter [0xAC010004] 1).pc ≠ (launchedAfter [0xAC010004] 1).cfg.sentinel ∧
    effectiveAddress (launched [0xAC010004]) 0 4 = uint (word ((uint (launched [0xAC010004]).pc : Int) + 4)) :=
  ⟨fetches_of (by decide), by decide, rfl, by decide, by decide, by decide⟩
/-- `sw $1, 8($0)` before a `lis $3`: the store is to the data word. -/
theorem witness_StoreIsSeenByNextFetch_data :
    Fetches (launched [0xAC010008, 0x00001814]) 0xAC010008 ∧ decode 0xAC010008 = .sw 1 0 8 ∧
    step (launched [0xAC010008, 0x00001814]) = .next (launchedAfter [0xAC010008, 0x00001814] 1) ∧
    (launchedAfter [0xAC010008, 0x00001814] 1).status = .running ∧
    (launchedAfter [0xAC010008, 0x00001814] 1).pc ≠ (launchedAfter [0xAC010008, 0x00001814] 1).cfg.sentinel ∧
    effectiveAddress (launched [0xAC010008, 0x00001814]) 0 8 =
      uint (word ((uint (launched [0xAC010008, 0x00001814]).pc : Int) + 8)) ∧
    (launchedAfter [0xAC010008, 0x00001814] 1).entry (uint (launchedAfter [0xAC010008, 0x00001814] 1).pc) =
      some 0x00001814 ∧ decode 0x00001814 = .lis 3 :=
  ⟨fetches_of (by decide), by decide, rfl, by decide, by decide, by decide, by decide, by decide⟩

theorem witness_EntriesAreIndependentKeys : (0x101 : Nat) ≠ 0x100 := by decide

theorem witness_CanonicalMemoryIsItsEntries_write_twice : Memory.wf [(0, 1), (0xFFFFFFFF, 2)] := by decide
theorem witness_CanonicalMemoryIsItsEntries_same_word :
    Memory.wf [(0, 1), (2, 2)] ∧ Memory.read? [(0, 1), (2, 2)] 2 = some 2 := by decide
theorem witness_CanonicalMemoryIsItsEntries_extensional :
    Memory.wf (Memory.write [(2, 2)] 0 1) ∧ Memory.wf [(0, 1), (2, 2)] ∧
    ∀ a, Memory.read? (Memory.write [(2, 2)] 0 1) a = Memory.read? [(0, 1), (2, 2)] a :=
  ⟨by decide, by decide, fun _ => rfl⟩

theorem witness_MemoryChangesOnlyByStore :
    step (launched [0xAC010100]) = .next (launchedAfter [0xAC010100] 1) ∧ (launched [0xAC010100]).entry 0 ≠ none ∧
    (launchedAfter [0xAC010100] 1).mem ≠ (launched [0xAC010100]).mem := ⟨rfl, by decide, by decide⟩

theorem witness_JumpTargetMeetsNextStep_sentinel :
    (Instr.jalr 31 = .jr 31 ∨ Instr.jalr 31 = .jalr 31) ∧ (launched []).status = .running ∧
    (launched []).reg 31 = (launched []).cfg.sentinel := by decide
theorem witness_JumpTargetMeetsNextStep_misaligned :
    (Instr.jr 1 = .jr 1 ∨ Instr.jr 1 = .jalr 1) ∧ (launched []).status = .running ∧
    (launched []).reg 1 ≠ (launched []).cfg.sentinel ∧ uint ((launched []).reg 1) % 4 ≠ 0 := by decide
theorem witness_JumpTargetMeetsNextStep_absent :
    (Instr.jr 0 = .jr 0 ∨ Instr.jr 0 = .jalr 0) ∧ (launched []).status = .running ∧
    (launched []).reg 0 ≠ (launched []).cfg.sentinel ∧ uint ((launched []).reg 0) % 4 = 0 ∧
    (launched []).entry (uint ((launched []).reg 0)) = none := by decide

/-- Vector J3: `jr $0` at 0. -/
theorem witness_JrToItselfNeverEnds :
    Fetches (launched [8]) 8 ∧ decode 8 = .jr 0 ∧ (launched [8]).reg 0 = (launched [8]).pc :=
  ⟨fetches_of (by decide), by decide, by decide⟩

/-- `lis $5` with the address 12, `jalr $5`, and `jr $31` there. -/
theorem witness_CallReturnsAfterTheCall :
    Fetches (launchedAfter [0x00002814, 12, 0x00A00009, 0x03E00008] 1) 0x00A00009 ∧ decode 0x00A00009 = .jalr 5 ∧
    step (launchedAfter [0x00002814, 12, 0x00A00009, 0x03E00008] 1) =
      .next (launchedAfter [0x00002814, 12, 0x00A00009, 0x03E00008] 2) ∧
    Fetches (launchedAfter [0x00002814, 12, 0x00A00009, 0x03E00008] 2) 0x03E00008 ∧ decode 0x03E00008 = .jr 31 :=
  ⟨fetches_of (by decide), by decide, rfl, fetches_of (by decide), by decide⟩

theorem witness_FaultsArePrecise :
    (launched [0]).status = .running ∧ step (launched [0]) = .next (launchedAfter [0] 1) ∧
    (launchedAfter [0] 1).status = .faulted (.unknownInstruction 0) := ⟨by decide, rfl, by decide⟩
theorem witness_FaultOrderOfAStep : (launched [0x8C05FFFF]).status = .running ∧
    expectedFault (launched [0x8C05FFFF]) = some (.invalidAddress (-1)) := by decide
theorem witness_FaultOrderOfAStep_no_fault : (launched [0x00221820]).status = .running ∧
    expectedFault (launched [0x00221820]) = none := by decide
theorem witness_HaltsExactlyAtSentinel :
    (launchedAfter [0x03E00008] 1).status = .running ∧
    step (launchedAfter [0x03E00008] 1) = .next (launchedAfter [0x03E00008] 2) ∧
    (launchedAfter [0x03E00008] 2).status = .halted := ⟨by decide, rfl, by decide⟩
theorem witness_HaltsExactlyAtSentinel_fault :
    (launched [0]).status = .running ∧ step (launched [0]) = .next (launchedAfter [0] 1) ∧
    (launchedAfter [0] 1).status = .faulted (.unknownInstruction 0) := ⟨by decide, rfl, by decide⟩
theorem witness_TerminalStatesPersist : (launchedAfter [0] 1).status ≠ .running := by decide

theorem witness_OneRegisterWrittenPerStep :
    step (launched [0x00221820]) = .next (launchedAfter [0x00221820] 1) ∧
    (launchedAfter [0x00221820] 1).reg 3 ≠ (launched [0x00221820]).reg 3 := ⟨rfl, by decide⟩
theorem witness_HiLoWrittenOnlyByMultiply :
    step (launched [0x00220018]) = .next (launchedAfter [0x00220018] 1) ∧
    (launchedAfter [0x00220018] 1).lo ≠ (launched [0x00220018]).lo := ⟨rfl, by decide⟩

theorem witness_OnlyListedRegistersAreRead :
    ∃ S T S' T' : State, T.pc = S.pc ∧ HiLoKept S T ∧ T.mem = S.mem ∧ StatusKept S T ∧
      (∀ r ∈ readRegs (.add 3 1 2), T.reg r = S.reg r) ∧ exec (.add 3 1 2) S = .next S' ∧
      exec (.add 3 1 2) T = .next T' ∧ S'.status = .running ∧ writtenReg (.add 3 1 2) = some 3 ∧ T.reg 0 = S.reg 0 :=
  ⟨launched [], (launched []).setReg 7 9, _, _, rfl, ⟨rfl, rfl⟩, rfl, ⟨rfl, rfl⟩, by decide, rfl, rfl, by decide,
    by decide, by decide⟩

theorem witness_HiLoAreNeverRead :
    ∃ S T : State, T.pc = S.pc ∧ RegsKept S T [] ∧ T.mem = S.mem ∧ StatusKept S T ∧ T.hi ≠ S.hi :=
  ⟨launched [0x00221820], (launched [0x00221820]).setHiLo 1 2, rfl, fun _ _ => rfl, rfl, ⟨rfl, rfl⟩, by decide⟩

theorem witness_ParametersAreFixed : step (launched [0x00221820]) = .next (launchedAfter [0x00221820] 1) := rfl

theorem witness_StepKeepsInvariant : Inv (launched [0xAC010100]) ∧
    step (launched [0xAC010100]) = .next (launchedAfter [0xAC010100] 1) :=
  ⟨⟨by decide, fun h => absurd rfl h⟩, rfl⟩

theorem witness_LaunchSetsEveryField_accepted : ([0x00221820] : List Word).length ≤ 2 ^ 30 ∧
    0 < ([0x00221820] : List Word).length ∧ ∀ k, k < ([0x00221820] : List Word).length → 4 ≠ 4 * k :=
  ⟨by decide, by decide, fun k hk => by simp at hk; omega⟩
theorem witness_LaunchSetsEveryField_refused : 2 ^ 30 < (List.replicate (2 ^ 30 + 1) (0 : Word)).length := by
  rw [List.length_replicate]; decide
theorem witness_LaunchMeetsInvariant : launch State.reset 7 (-3) [0x00221820] = .next
    (launchState State.reset.cfg 7 (-3) [0x00221820]) := rfl
theorem witness_ResetIsTheDefaultLaunch : (launchedAfter [0] 1).cfg = State.reset.cfg := by decide

/-- Two words with a line break inside the first. -/
theorem witness_ProgramTextReadsBack_accepted :
    ([0x00221820, 0x03E00008] : List Word) ≠ [] ∧
    ('0' :: '\n' :: (encodeWord 0x00221820).tail ++ ',' :: ' ' :: encodeWord 0x03E00008).filter
      (fun c => !isLineBreak c) =
      List.intercalate [',', ' '] (([0x00221820, 0x03E00008] : List Word).map encodeWord) := ⟨by decide, by decide⟩
theorem witness_ProgramTextReadsBack_refused :
    ['1', '0', '1'] ∈ splitItems (['1', '0', '1'].filter fun c => !isLineBreak c) ∧
    ¬ (['1', '0', '1'].length = 32 ∧ ∀ c ∈ ['1', '0', '1'], c = '0' ∨ c = '1') := by decide

theorem witness_DecodedStringIsTheWord_accepted : ('1' :: List.replicate 31 '0').length = 32 ∧
    ∀ c ∈ '1' :: List.replicate 31 '0', c = '0' ∨ c = '1' :=
  ⟨rfl, fun _ hc => (List.mem_cons.mp hc).elim .inr fun h => .inl (List.eq_of_mem_replicate h)⟩
theorem witness_DecodedStringIsTheWord_refused : ¬ ((List.replicate 32 '2').length = 32 ∧
    ∀ c ∈ List.replicate 32 '2', c = '0' ∨ c = '1') :=
  fun h => absurd (h.2 '2' (List.mem_replicate.mpr ⟨by decide, rfl⟩)) (by decide)

theorem witness_SnapshotShowsTheState : (launched [0x00221820]).mem.wf ∧
    ((launched [0x00221820]).setStatus .halted).mem.wf ∧
    snapshot (launched [0x00221820]) = snapshot ((launched [0x00221820]).setStatus .halted) :=
  ⟨by decide, by decide, rfl⟩

/-- Program P1: `add $3, $1, $2` then `jr $31`. -/
theorem witness_TraceOfAHaltingRun :
    (2 : Nat) ≤ 5 ∧
    (∀ j, j < 2 → (launchedAfter [0x00221820, 0x03E00008] j).pc ≠
        (launchedAfter [0x00221820, 0x03E00008] j).cfg.sentinel ∧
      stepOutcome (launchedAfter [0x00221820, 0x03E00008] j) = .running) ∧
    (launchedAfter [0x00221820, 0x03E00008] 2).pc = (launchedAfter [0x00221820, 0x03E00008] 2).cfg.sentinel :=
  ⟨by decide, by decide, by decide⟩
theorem witness_TraceOfAFaultingRun :
    (1 : Nat) < 2 ∧ (launched [0x00221820]).status = .running ∧
    (∀ j, j < 1 → stepOutcome (launchedAfter [0x00221820] j) = .running) ∧
    (∀ j, j ≤ 1 → (launchedAfter [0x00221820] j).pc ≠ (launchedAfter [0x00221820] j).cfg.sentinel) ∧
    stepOutcome (launchedAfter [0x00221820] 1) = .faulted (.uninitializedMemoryRead 4) :=
  ⟨by decide, by decide, by decide, by decide, by decide⟩
/-- Program P8: a jump to itself. -/
theorem witness_StepLimitStopsTheHost :
    (launched [0x00002814, 8, 0x00A00008]).status = .running ∧
    (∀ j, j ≤ 2 → (launchedAfter [0x00002814, 8, 0x00A00008] j).pc ≠
      (launchedAfter [0x00002814, 8, 0x00A00008] j).cfg.sentinel) ∧
    (∀ j, j < 2 → stepOutcome (launchedAfter [0x00002814, 8, 0x00A00008] j) = .running) :=
  ⟨by decide, by decide, by decide⟩

end Sys2Proof.Tests
end

section
/-! PROOFS. The extension of an immediate field (00_scope.md R10): the two words bit by bit and their signed reading. -/

namespace Sys2Proof.Machine

/-- `sext_32` as a concatenation (00_scope.md R10): every bit above the field is the field's sign bit. -/
theorem sext32_eq_append (v : BitVec 16) :
    sext32 v = (BitVec.replicate 16 (v.extractLsb' 15 1)).cast (by decide) ++ v := by
  ext k hk
  rw [sext32, BitVec.getElem_signExtend, BitVec.getElem_append]
  split
  case isTrue hField => rfl
  case isFalse hAbove =>
    rw [BitVec.getElem_cast, BitVec.getElem_replicate]
    simp [Nat.mod_one, BitVec.msb_eq_getLsbD_last]

/-- `zext_32` as a concatenation (00_scope.md R10). -/
theorem zext32_eq_append (v : BitVec 16) : zext32 v = 0#16 ++ v :=
  BitVec.setWidth_eq_append (by decide)

/-- Sign extension keeps the two's-complement value (00_scope.md R10). -/
@[simp] theorem sint_sext32 (v : BitVec 16) : sint (sext32 v) = v.toInt :=
  BitVec.toInt_signExtend_of_le (by decide)

/-- `signed16` is the field's own 16-bit two's-complement value (30_encoding.md R56). -/
theorem signed16_eq_toInt (v : BitVec 16) : signed16 v = v.toInt :=
  sint_sext32 v

theorem neg_32768_le_signed16 (v : BitVec 16) : -32768 ≤ signed16 v := by
  rw [signed16_eq_toInt]
  exact v.le_toInt

theorem signed16_le_32767 (v : BitVec 16) : signed16 v ≤ 32767 := by
  rw [signed16_eq_toInt]
  exact BitVec.toInt_le

/-- Settles O24: the two concatenations, the value of `sext_32`, and the range of a 16-bit two's-complement value. -/
theorem immediateExtension : Obligations.ImmediateExtension := fun v =>
  ⟨sext32_eq_append v, sint_sext32 v, zext32_eq_append v, rfl, neg_32768_le_signed16 v, signed16_le_32767 v⟩

end Sys2Proof.Machine
end

section
/-! PROOFS. What an instruction writes, as data (10_state.md R24): which fault it raises, which writes it makes when it
raises none, and `exec` as the two together. What a variant reads and writes is then said of the data, once. -/

namespace Sys2Proof.Machine

/-! ### The writes of a completed instruction -/

/-- The writes of one completed instruction: the new PC, and at most one general register, the pair `HI`, `LO` and one
memory entry. -/
structure Writes where
  pc : Word
  reg : Option (Reg × Word) := none
  hiLo : Option (Word × Word) := none
  cell : Option (Nat × Word) := none

/-- The state with the writes made. -/
def Writes.apply (e : Writes) (S : State) : State :=
  { S with
    pc := e.pc
    hi := (e.hiLo.getD (S.hi, S.lo)).1
    lo := (e.hiLo.getD (S.hi, S.lo)).2
    regs := match e.reg with
      | none => S.regs
      | some (r, v) => S.regs.set r v
    mem := match e.cell with
      | none => S.mem
      | some (a, v) => S.mem.write a v }

section
variable (e : Writes) (S : State)

@[simp] theorem Writes.apply_pc : (e.apply S).pc = e.pc := rfl
@[simp] theorem Writes.apply_hi : (e.apply S).hi = (e.hiLo.getD (S.hi, S.lo)).1 := rfl
@[simp] theorem Writes.apply_lo : (e.apply S).lo = (e.hiLo.getD (S.hi, S.lo)).2 := rfl
@[simp] theorem Writes.apply_status : (e.apply S).status = S.status := rfl
@[simp] theorem Writes.apply_cfg : (e.apply S).cfg = S.cfg := rfl

end

variable {e : Writes} {S T U : State} {i : Instr} {r : Reg}

theorem Writes.apply_reg_written {v : Word} (h : e.reg = some (r, v)) : (e.apply S).reg r = v := by
  have hset : (e.apply S).reg r = (S.setReg r v).reg r := by simp only [Writes.apply, h]; rfl
  rw [hset, State.setReg_reg_same]

theorem Writes.apply_reg_kept (h : ∀ v, e.reg ≠ some (r, v)) : (e.apply S).reg r = S.reg r := by
  cases hreg : e.reg with
  | none => simp only [Writes.apply, hreg]; rfl
  | some p =>
    obtain ⟨q, v⟩ := p
    have hne : r ≠ q := fun hrq => h v (hrq ▸ hreg)
    have hset : (e.apply S).reg r = (S.setReg q v).reg r := by simp only [Writes.apply, hreg]; rfl
    rw [hset, State.setReg_reg_ne S q r v hne]

theorem Writes.apply_mem_kept (h : e.cell = none) : (e.apply S).mem = S.mem := by
  simp only [Writes.apply, h]

theorem Writes.apply_mem_written {a : Nat} {v : Word} (h : e.cell = some (a, v)) :
    (e.apply S).mem = S.mem.write a v := by
  simp only [Writes.apply, h]

theorem Writes.apply_mem_congr (h : T.mem = S.mem) : (e.apply T).mem = (e.apply S).mem := by
  simp only [Writes.apply, h]

/-- Equal registers stay equal under the same writes. -/
theorem Writes.apply_reg_congr (h : T.reg r = S.reg r) : (e.apply T).reg r = (e.apply S).reg r := by
  by_cases hw : ∃ v, e.reg = some (r, v)
  · obtain ⟨v, hv⟩ := hw
    rw [Writes.apply_reg_written hv, Writes.apply_reg_written hv]
  · rw [Writes.apply_reg_kept (not_exists.mp hw), Writes.apply_reg_kept (not_exists.mp hw), h]

/-- No write deletes an entry (20_memory.md R38). -/
theorem Writes.apply_entry_ne_none {a : Nat} (h : S.entry a ≠ none) : (e.apply S).entry a ≠ none := by
  cases hcell : e.cell with
  | none => rwa [State.entry, Writes.apply_mem_kept hcell]
  | some p =>
    rw [State.entry, Writes.apply_mem_written hcell, Memory.read?_write]
    split
    · exact Option.some_ne_none _
    · exact h

/-! ### The fault and the writes of each variant -/

/-- The fault an instruction raises in a state, if any (60_exceptions.md R109 items 3 to 5). -/
def faultOf (i : Instr) (S : State) : Option Fault :=
  match i with
  | .lis _ => absentFault S (uint (nextPc S.pc))
  | .lw _ s imm => accessFault S (effectiveAddress S s imm) true
  | .sw _ s imm => accessFault S (effectiveAddress S s imm) false
  | .unknown w => some (.unknownInstruction w)
  | i => if executes i then none else some (.unsupportedInstruction (encode i))

/-- The writes an instruction makes in a state where it raises no fault. Where it raises one, nothing is written and
the value here means nothing; so the default of an absent entry is never used. -/
def writesOf (i : Instr) (S : State) : Writes :=
  match i with
  | .add d s t => { pc := nextPc S.pc, reg := some (d, aluAdd (S.reg s) (S.reg t)) }
  | .sub d s t => { pc := nextPc S.pc, reg := some (d, aluSub (S.reg s) (S.reg t)) }
  | .mult s t =>
    let p := signedProduct (S.reg s) (S.reg t)
    { pc := nextPc S.pc, hiLo := some (productHi p, productLo p) }
  | .multu s t =>
    let p := unsignedProduct (S.reg s) (S.reg t)
    { pc := nextPc S.pc, hiLo := some (productHi p, productLo p) }
  | .lis d => { pc := nextPc (nextPc S.pc), reg := some (d, (S.entry (uint (nextPc S.pc))).getD 0) }
  | .lw t s imm => { pc := nextPc S.pc, reg := some (t, (S.entry (effectiveAddress S s imm).toNat).getD 0) }
  | .sw t s imm => { pc := nextPc S.pc, cell := some ((effectiveAddress S s imm).toNat, S.reg t) }
  | .jr s => { pc := S.reg s }
  | .jalr s => { pc := S.reg s, reg := some (31, nextPc S.pc) }
  | _ => { pc := nextPc S.pc }

/-- The state an instruction leaves: the fault taken, or the writes made. -/
def afterExec (i : Instr) (S : State) : State :=
  match faultOf i S with
  | none => (writesOf i S).apply S
  | some k => takeFault k S

theorem afterExec_of_noFault (h : faultOf i S = none) : afterExec i S = (writesOf i S).apply S := by
  simp only [afterExec, h]

theorem afterExec_of_fault {k : Fault} (h : faultOf i S = some k) : afterExec i S = takeFault k S := by
  simp only [afterExec, h]

theorem accessFault_out {ea : Int} (h : ¬ addressInRange ea) (isRead : Bool) :
    accessFault S ea isRead = some (.invalidAddress ea) :=
  if_pos (by simpa [addressInRange, imp_iff_not_or] using h)

/-- A read in range raises the fault of an absent entry only. -/
theorem accessFault_read {ea : Int} (h : addressInRange ea) : accessFault S ea true = absentFault S ea.toNat :=
  if_neg (by obtain ⟨h0, h1⟩ := h; omega)

theorem accessFault_write {ea : Int} (h : addressInRange ea) : accessFault S ea false = none :=
  if_neg (by obtain ⟨h0, h1⟩ := h; omega)

theorem absentFault_some {a : Nat} {v : Word} (h : S.entry a = some v) : absentFault S a = none := by
  simp only [absentFault, h]

theorem absentFault_none {a : Nat} (h : S.entry a = none) :
    absentFault S a = some (.uninitializedMemoryRead a) := by
  simp only [absentFault, h]

/-- `faultOf` and `writesOf` are the whole meaning of an instruction. -/
theorem exec_eq_afterExec (i : Instr) (S : State) : exec i S = .next (afterExec i S) := by
  cases i with
  | lis d =>
    cases h : S.entry (uint (nextPc S.pc)) with
    | none =>
      rw [afterExec_of_fault (i := .lis d) (absentFault_none h)]
      exact execLis_none h
    | some v =>
      rw [afterExec_of_noFault (i := .lis d) (absentFault_some h), writesOf, h]
      exact execLis_some h
  | lw t s imm =>
    by_cases hr : addressInRange (effectiveAddress S s imm)
    · cases h : S.entry (effectiveAddress S s imm).toNat with
      | none =>
        rw [afterExec_of_fault (i := .lw t s imm) ((accessFault_read hr).trans (absentFault_none h))]
        exact execLw_none hr h
      | some v =>
        rw [afterExec_of_noFault (i := .lw t s imm) ((accessFault_read hr).trans (absentFault_some h)), writesOf, h]
        exact execLw_some hr h
    · rw [afterExec_of_fault (i := .lw t s imm) (accessFault_out hr true)]
      exact execLw_out hr
  | sw t s imm =>
    by_cases hr : addressInRange (effectiveAddress S s imm)
    · rw [afterExec_of_noFault (i := .sw t s imm) (accessFault_write hr)]
      exact execSw_in hr
    · rw [afterExec_of_fault (i := .sw t s imm) (accessFault_out hr false)]
      exact execSw_out hr
  | _ => rfl

end Sys2Proof.Machine
end

section
/-! PROOFS. What each variant reads and writes (10_state.md R24), and that no program reads `HI` or `LO` (R25). -/

namespace Sys2Proof.Machine

variable {S T : State} {i : Instr}

/-! ### What a variant writes -/

/-- The register write is to the register 10_state.md R24 lists, and there is one exactly when one is listed. -/
theorem writesOf_reg (i : Instr) (S : State) : (writesOf i S).reg.map Prod.fst = writtenReg i := by
  cases i <;> rfl

theorem writesOf_hiLo_isSome (i : Instr) (S : State) : (writesOf i S).hiLo.isSome = writesHiLo i := by
  cases i <;> rfl

/-- Only a `Sw` writes an entry, the one under its effective address. -/
theorem writesOf_cell {a : Nat} {v : Word} (h : (writesOf i S).cell = some (a, v)) :
    ∃ t s imm, i = .sw t s imm ∧ a = (effectiveAddress S s imm).toNat ∧ v = S.reg t := by
  cases i with
  | sw t s imm =>
    cases h
    exact ⟨t, s, imm, rfl, rfl, rfl⟩
  | _ => cases h

theorem addressInRange_of_sw_noFault {t s : Reg} {imm : BitVec 16} (h : faultOf (.sw t s imm) S = none) :
    addressInRange (effectiveAddress S s imm) := by
  by_contra hout
  have hfault : faultOf (.sw t s imm) S = _ := accessFault_out hout false
  rw [hfault] at h
  cases h

/-! ### What a variant reads -/

/-- Two states that agree on what an instruction may read: the PC, memory and its listed registers. -/
structure AgreeOnReads (i : Instr) (S T : State) : Prop where
  pc : T.pc = S.pc
  mem : T.mem = S.mem
  regs : ∀ r ∈ readRegs i, T.reg r = S.reg r

theorem AgreeOnReads.entry_eq (h : AgreeOnReads i S T) (a : Nat) : T.entry a = S.entry a := by
  rw [State.entry, h.mem, State.entry]

theorem AgreeOnReads.absentFault_eq (h : AgreeOnReads i S T) (a : Nat) :
    absentFault T a = absentFault S a := by
  simp only [absentFault, h.entry_eq]

theorem AgreeOnReads.effectiveAddress_eq (h : AgreeOnReads i S T) {s : Reg} (hs : s ∈ readRegs i) (imm : BitVec 16) :
    effectiveAddress T s imm = effectiveAddress S s imm := by
  simp only [effectiveAddress, h.regs s hs]

theorem AgreeOnReads.accessFault_eq (h : AgreeOnReads i S T) (ea : Int) (isRead : Bool) :
    accessFault T ea isRead = accessFault S ea isRead := by
  simp only [accessFault, h.absentFault_eq]

/-- The fault depends on nothing else. -/
theorem faultOf_congr (h : AgreeOnReads i S T) : faultOf i T = faultOf i S := by
  cases i with
  | lis d => simp only [faultOf, h.pc, h.absentFault_eq]
  | lw t s imm => simp only [faultOf, h.effectiveAddress_eq (s := s) (by simp [readRegs]), h.accessFault_eq]
  | sw t s imm => simp only [faultOf, h.effectiveAddress_eq (s := s) (by simp [readRegs]), h.accessFault_eq]
  | _ => rfl

/-- The writes depend on nothing else. -/
theorem writesOf_congr (h : AgreeOnReads i S T) : writesOf i T = writesOf i S := by
  have hpc := h.pc
  have hregs := h.regs
  cases i with
  | lw t s imm => simp only [writesOf, hpc, h.entry_eq, h.effectiveAddress_eq (s := s) (by simp [readRegs])]
  | sw t s imm =>
    simp only [writesOf, hpc, h.effectiveAddress_eq (s := s) (by simp [readRegs]), hregs t (by simp [readRegs])]
  | lis d => simp only [writesOf, hpc, h.entry_eq]
  | _ => simp_all [writesOf, readRegs]

/-- Settles O45: the two steps take one fault or make the same writes. -/
theorem onlyListedRegistersAreRead : Obligations.OnlyListedRegistersAreRead := by
  intro i S T S' T' hpc hhilo hmem hst hregs hS hT
  have hreads : AgreeOnReads i S T := ⟨hpc, hmem, hregs⟩
  rw [exec_eq_afterExec] at hS hT
  cases hS
  cases hT
  cases hf : faultOf i S with
  | some k =>
    rw [afterExec_of_fault hf, afterExec_of_fault ((faultOf_congr hreads).trans hf)]
    exact ⟨hpc, hhilo, hmem, ⟨rfl, hst.2⟩, fun r hr => hr, fun r hrun => nomatch hrun⟩
  | none =>
    rw [afterExec_of_noFault hf, afterExec_of_noFault ((faultOf_congr hreads).trans hf), writesOf_congr hreads]
    obtain ⟨hhi, hlo⟩ := hhilo
    refine ⟨rfl, ?_, Writes.apply_mem_congr hmem, hst, fun r hr => Writes.apply_reg_congr hr, fun r _ hw => ?_⟩
    · simp only [HiLoKept, Writes.apply_hi, Writes.apply_lo, hhi, hlo, and_self]
    · rw [← writesOf_reg i S, Option.map_eq_some_iff] at hw
      obtain ⟨⟨_, v⟩, hv, rfl⟩ := hw
      rw [Writes.apply_reg_written hv, Writes.apply_reg_written hv]

/-! ### Other values of `HI` and `LO` -/

/-- The start of a step does not read `HI` or `LO`: it ends the same way, or fetches the same word. -/
theorem startStep_setHiLo (S : State) (h l : Word) :
    (∃ T, startStep S = .done T ∧ startStep (S.setHiLo h l) = .done (T.setHiLo h l)) ∨
      ∃ w, startStep S = .execute w ∧ startStep (S.setHiLo h l) = .execute w := by
  have hfetch : fetch (S.setHiLo h l) = fetch S := rfl
  simp only [startStep, State.setHiLo_status, State.setHiLo_pc, State.setHiLo_cfg, hfetch]
  split
  · exact .inl ⟨_, rfl, rfl⟩
  · exact .inl ⟨_, rfl, rfl⟩
  · split
    · exact .inl ⟨_, rfl, rfl⟩
    · split
      · exact .inr ⟨_, rfl, rfl⟩
      · exact .inl ⟨_, rfl, rfl⟩

/-- An instruction carries other values of `HI` and `LO` along, and changes nothing else for them. -/
theorem afterExec_setHiLo (i : Instr) (S : State) (h l : Word) :
    ∃ h' l', afterExec i (S.setHiLo h l) = (afterExec i S).setHiLo h' l' := by
  have hreads : AgreeOnReads i S (S.setHiLo h l) := ⟨rfl, rfl, fun _ _ => rfl⟩
  cases hf : faultOf i S with
  | some k =>
    rw [afterExec_of_fault hf, afterExec_of_fault ((faultOf_congr hreads).trans hf)]
    exact ⟨h, l, rfl⟩
  | none =>
    rw [afterExec_of_noFault hf, afterExec_of_noFault ((faultOf_congr hreads).trans hf), writesOf_congr hreads]
    exact ⟨_, _, rfl⟩

theorem stepState_eq (h : step S = .next T) : stepState S = T := by
  simp only [stepState, h]

theorem stepState_done (h : startStep S = .done T) : stepState S = T := stepState_eq (step_done h)

theorem stepState_execute {w : Word} (h : startStep S = .execute w) : stepState S = afterExec (decode w) S :=
  stepState_eq ((step_execute h).trans (exec_eq_afterExec _ _))

theorem stepState_setHiLo (S : State) (h l : Word) :
    ∃ h' l', stepState (S.setHiLo h l) = (stepState S).setHiLo h' l' := by
  rcases startStep_setHiLo S h l with ⟨T, hS, hS'⟩ | ⟨w, hS, hS'⟩
  · rw [stepState_done hS, stepState_done hS']
    exact ⟨h, l, rfl⟩
  · rw [stepState_execute hS, stepState_execute hS']
    exact afterExec_setHiLo (decode w) S h l

theorem stepsState_setHiLo (n : Nat) (S : State) (h l : Word) :
    ∃ h' l', stepsState n (S.setHiLo h l) = (stepsState n S).setHiLo h' l' := by
  induction n generalizing S h l with
  | zero => exact ⟨h, l, rfl⟩
  | succ n ih =>
    obtain ⟨h', l', hstep⟩ := stepState_setHiLo S h l
    simp only [stepsState, hstep]
    exact ih (stepState S) h' l'

/-- Settles O46: the second state is the first with other values of `HI` and `LO`, and every step keeps that. -/
theorem hiLoAreNeverRead : Obligations.HiLoAreNeverRead := by
  intro S T n hpc hregs hmem hst
  have hT : T = S.setHiLo T.hi T.lo :=
    State.ext_reg hpc rfl rfl (fun r => hregs r List.not_mem_nil) hmem hst.1 hst.2
  obtain ⟨h', l', hn⟩ := stepsState_setHiLo n S T.hi T.lo
  rw [hT, hn]
  exact ⟨rfl, fun _ _ => rfl, rfl, rfl, rfl⟩

/-! ### What a step changes -/

/-- Settles O9: each way a step can go answers a next state. -/
theorem stepAlwaysAnswersNext : Obligations.StepAlwaysAnswersNext := by
  intro S
  rcases step_cases S with ⟨_, h⟩ | ⟨_, _, h⟩ | ⟨_, _, k, h⟩ | ⟨_, T, _, h, _⟩
  · exact ⟨S, h⟩
  · exact ⟨_, h⟩
  · exact ⟨_, h⟩
  · exact ⟨T, h⟩

/-- Everything a step can change: the run status alone, or what the fetched instruction writes. -/
theorem step_changes (h : step S = .next T) :
    (∃ st, T = S.setStatus st) ∨
      ∃ w, Fetches S w ∧ faultOf (decode w) S = none ∧ T = (writesOf (decode w) S).apply S := by
  rcases step_cases S with ⟨_, h'⟩ | ⟨_, _, h'⟩ | ⟨_, _, k, h'⟩ | ⟨w, U, hw, h', hexec, hrun, _⟩
  · cases h.symm.trans h'
    exact .inl ⟨S.status, rfl⟩
  · cases h.symm.trans h'
    exact .inl ⟨_, rfl⟩
  · cases h.symm.trans h'
    exact .inl ⟨_, rfl⟩
  · cases h.symm.trans h'
    cases (exec_eq_afterExec (decode w) S).symm.trans hexec
    cases hf : faultOf (decode w) S with
    | none => exact .inr ⟨w, hw, hf, afterExec_of_noFault hf⟩
    | some k =>
      rw [afterExec_of_fault hf] at hrun
      cases hrun

/-- Settles O43: a register that is not the written one of the fetched variant keeps its value. -/
theorem oneRegisterWrittenPerStep : Obligations.OneRegisterWrittenPerStep := by
  intro S T r h hne
  rcases step_changes h with ⟨st, rfl⟩ | ⟨w, hw, _, rfl⟩
  · exact absurd rfl hne
  · refine ⟨w, hw, ?_⟩
    by_contra hother
    refine hne (Writes.apply_reg_kept fun v hv => hother ?_)
    rw [← writesOf_reg (decode w) S, hv, Option.map_some]

/-- Settles O44: a variant that does not write the pair leaves both words. -/
theorem hiLoWrittenOnlyByMultiply : Obligations.HiLoWrittenOnlyByMultiply := by
  intro S T h hne
  rcases step_changes h with ⟨st, rfl⟩ | ⟨w, hw, _, rfl⟩
  · simp at hne
  · refine ⟨w, hw, ?_⟩
    rw [← writesOf_hiLo_isSome (decode w) S]
    by_contra hnone
    simp [Option.not_isSome_iff_eq_none.mp hnone] at hne

/-- Settles O33: the entry a completed `Sw` writes is the only change of memory. -/
theorem memoryChangesOnlyByStore : Obligations.MemoryChangesOnlyByStore := by
  intro S T h
  rcases step_changes h with ⟨st, rfl⟩ | ⟨w, hw, hf, rfl⟩
  · exact ⟨fun _ ha => ha, fun hne => absurd rfl hne⟩
  · refine ⟨fun a ha => Writes.apply_entry_ne_none ha, fun hne => ?_⟩
    cases hcell : (writesOf (decode w) S).cell with
    | none => exact absurd (Writes.apply_mem_kept hcell) hne
    | some p =>
      obtain ⟨t, s, imm, hsw, ha, hv⟩ := writesOf_cell hcell
      obtain ⟨hlow, hhigh⟩ := addressInRange_of_sw_noFault (hsw ▸ hf)
      have hmem := Writes.apply_mem_written (S := S) hcell
      rw [ha, hv] at hmem
      refine ⟨w, t, s, imm, hw, hsw, hlow, hhigh, ?_, fun b hb => ?_⟩
      · rw [State.entry, hmem, Memory.read?_write_same]
      · rw [State.entry, hmem, Memory.read?_write_ne _ (List.ne_of_not_mem_cons hb), State.entry]

end Sys2Proof.Machine
end

section
/-! PROOFS. The Word Codec (10_state.md R17 to R20): what a string spells, the string of a value, and that the two are
inverse; and the snapshot read back (R34). -/

namespace Sys2Proof.Machine

/-! ### Single characters -/

/-- A character of a bit string: `0` or `1`. -/
abbrev IsBitChar (c : Char) : Prop := c = '0' ∨ c = '1'

/-- A string of exactly `width` characters, each `0` or `1`. -/
abbrev IsBitString (width : Nat) (bits : BitString) : Prop := bits.length = width ∧ ∀ c ∈ bits, IsBitChar c

theorem isBitChar_bitChar (b : Bool) : IsBitChar (bitChar b) := by
  cases b
  · exact .inl rfl
  · exact .inr rfl

/-- The bit of a character; every character but `1` counts as 0, as `bitsValue` reads it. -/
def charBit (c : Char) : Nat := if c == '1' then 1 else 0

theorem charBit_lt (c : Char) : charBit c < 2 := by
  unfold charBit
  split <;> decide

/-- The bits read as characters and back. -/
theorem charBit_bitChar (n : Nat) : charBit (bitChar (n % 2 == 1)) = n % 2 := by
  rcases Nat.mod_two_eq_zero_or_one n with h | h <;> rw [h] <;> rfl

theorem bitChar_charBit {c : Char} (h : IsBitChar c) : bitChar (charBit c == 1) = c := by
  rcases h with rfl | rfl <;> rfl

/-! ### The value a string spells -/

theorem foldl_bits_eq (bits : BitString) (n : Nat) :
    bits.foldl (fun n c => 2 * n + if c == '1' then 1 else 0) n = n * 2 ^ bits.length + bitsValue bits := by
  induction bits generalizing n with
  | nil => simp [bitsValue]
  | cons c bits ih =>
    simp only [bitsValue, List.foldl_cons, List.length_cons] at ih ⊢
    rw [ih, ih (2 * 0 + _), pow_succ]
    ring

/-- The first character is the most significant. -/
theorem bitsValue_cons (c : Char) (bits : BitString) :
    bitsValue (c :: bits) = charBit c * 2 ^ bits.length + bitsValue bits := by
  rw [bitsValue, List.foldl_cons, foldl_bits_eq, Nat.mul_zero, Nat.zero_add, charBit]

theorem bitsValue_lt (bits : BitString) : bitsValue bits < 2 ^ bits.length := by
  induction bits with
  | nil => decide
  | cons c bits ih =>
    have hbit : charBit c * 2 ^ bits.length ≤ 1 * 2 ^ bits.length :=
      Nat.mul_le_mul_right _ (Nat.le_of_lt_succ (charBit_lt c))
    rw [bitsValue_cons, List.length_cons, pow_succ]
    omega

/-! ### The string of a value -/

@[simp] theorem length_bitsOfNat (k n : Nat) : (bitsOfNat k n).length = k := by
  induction k with
  | zero => rfl
  | succ k ih => simp [bitsOfNat, ih]

theorem isBitChar_of_mem_bitsOfNat {k n : Nat} {c : Char} (h : c ∈ bitsOfNat k n) : IsBitChar c := by
  induction k with
  | zero => cases h
  | succ k ih =>
    rcases List.mem_cons.mp h with rfl | h
    · exact isBitChar_bitChar _
    · exact ih h

theorem bitsValue_bitsOfNat (k n : Nat) : bitsValue (bitsOfNat k n) = n % 2 ^ k := by
  induction k with
  | zero => simp [bitsOfNat, bitsValue, Nat.mod_one]
  | succ k ih =>
    rw [bitsOfNat, bitsValue_cons, charBit_bitChar, length_bitsOfNat, ih, Nat.mod_pow_succ]
    ring

/-- Character `j` is the bit `k - 1 - j`. -/
theorem getElem?_bitsOfNat {k j : Nat} (n : Nat) (h : j < k) :
    (bitsOfNat k n)[j]? = some (bitChar (n.testBit (k - 1 - j))) := by
  induction k generalizing j with
  | zero => exact absurd h (Nat.not_lt_zero j)
  | succ k ih =>
    cases j with
    | zero => simp [bitsOfNat, Nat.testBit_eq_decide_div_mod_eq, beq_eq_decide]
    | succ j =>
      have hindex : k + 1 - 1 - (j + 1) = k - 1 - j := by omega
      rw [bitsOfNat, List.getElem?_cons_succ, ih (Nat.lt_of_succ_lt_succ h), hindex]

/-- The string depends on the spelled bits only. -/
theorem bitsOfNat_add_mul (k b n : Nat) : bitsOfNat k (b * 2 ^ k + n) = bitsOfNat k n := by
  induction k generalizing b with
  | zero => rfl
  | succ k ih =>
    have hhigh : b * 2 ^ (k + 1) = 2 * b * 2 ^ k := by ring
    rw [bitsOfNat, bitsOfNat, hhigh, ih, Nat.add_comm, Nat.add_mul_div_right _ _ (Nat.two_pow_pos k),
      Nat.add_mul_mod_self_left]

/-- A string of `0` and `1` is the string of the value it spells. -/
theorem bitsOfNat_bitsValue {bits : BitString} (h : ∀ c ∈ bits, IsBitChar c) :
    bitsOfNat bits.length (bitsValue bits) = bits := by
  induction bits with
  | nil => rfl
  | cons c bits ih =>
    obtain ⟨hc, hbits⟩ := List.forall_mem_cons.mp h
    have hhead : (charBit c * 2 ^ bits.length + bitsValue bits) / 2 ^ bits.length % 2 = charBit c := by
      rw [Nat.add_comm, Nat.add_mul_div_right _ _ (Nat.two_pow_pos _), Nat.div_eq_of_lt (bitsValue_lt bits),
        Nat.zero_add, Nat.mod_eq_of_lt (charBit_lt c)]
    rw [List.length_cons, bitsOfNat, bitsValue_cons, hhead, bitChar_charBit hc, bitsOfNat_add_mul, ih hbits]

/-! ### The codec -/

theorem isBitString32_iff (bits : BitString) :
    isBitString32 bits = true ↔ IsBitString 32 bits := by
  simp [isBitString32]

theorem decodeUnsigned_of_isBitString {bits : BitString} (h : IsBitString 32 bits) :
    decodeUnsigned bits = some (bitsValue bits) := if_pos ((isBitString32_iff bits).mpr h)

theorem decodeUnsigned_of_not_isBitString {bits : BitString} (h : ¬ IsBitString 32 bits) :
    decodeUnsigned bits = none :=
  if_neg (mt (isBitString32_iff bits).mp h)

theorem toNat_emod_two_pow (value : Int) (width : Nat) :
    ((value % 2 ^ width).toNat : Int) = value % 2 ^ width :=
  Int.toNat_of_nonneg (Int.emod_nonneg _ (by positivity))

theorem bitsValue_encodeBits (value : Int) (width : Nat) :
    bitsValue (encodeBits value width) = (value % 2 ^ width).toNat := by
  have hlt : (value % 2 ^ width).toNat < 2 ^ width := by
    zify
    rw [toNat_emod_two_pow]
    exact Int.emod_lt_of_pos _ (by positivity)
  rw [encodeBits, bitsValue_bitsOfNat, Nat.mod_eq_of_lt hlt]

theorem encodeBits_isBitString (value : Int) (width : Nat) :
    IsBitString width (encodeBits value width) :=
  ⟨length_bitsOfNat _ _, fun _ hc => isBitChar_of_mem_bitsOfNat hc⟩

/-- Settles O55: each part is a fact about the string of the value reduced modulo 2^width. -/
theorem encodeSpellsTheValue : Obligations.EncodeSpellsTheValue := by
  refine ⟨fun value width => ?_, fun x => ?_⟩
  · obtain ⟨hlength, hchars⟩ := encodeBits_isBitString value width
    refine ⟨hlength, hchars, ?_, fun k hk => getElem?_bitsOfNat _ hk⟩
    rw [bitsValue_encodeBits, toNat_emod_two_pow]
  · rw [decodeUnsigned_of_isBitString (encodeBits_isBitString x 32), bitsValue_encodeBits]

/-- The word a string spells. -/
def wordOfBits (bits : BitString) : Word := BitVec.ofNat 32 (bitsValue bits)

theorem uint_wordOfBits {bits : BitString} (h : bits.length = 32) : uint (wordOfBits bits) = bitsValue bits := by
  rw [wordOfBits, uint, BitVec.toNat_ofNat, Nat.mod_eq_of_lt (h ▸ bitsValue_lt bits)]

theorem decodeSigned_of_isBitString {bits : BitString} (h : IsBitString 32 bits) :
    decodeSigned bits = some (sint (wordOfBits bits)) := by
  rw [decodeSigned, decodeUnsigned_of_isBitString h, wordOfBits, ← BitVec.ofInt_natCast]
  rfl

/-- Settles O56: the word is the one the string spells. -/
theorem decodedStringIsTheWord : Obligations.DecodedStringIsTheWord := by
  refine fun bits => ⟨fun h => ⟨wordOfBits bits, ?_, ?_, fun k hk => ?_⟩, fun h => ?_⟩
  · rw [decodeUnsigned_of_isBitString h, uint_wordOfBits h.1]
  · exact decodeSigned_of_isBitString h
  · have hbits : bitsOfNat 32 (bitsValue bits) = bits := h.1 ▸ bitsOfNat_bitsValue h.2
    rw [BitVec.getLsbD, ← uint, uint_wordOfBits h.1, ← getElem?_bitsOfNat _ hk, hbits]
  · have hnone := decodeUnsigned_of_not_isBitString h
    exact ⟨hnone, by rw [decodeSigned, hnone]; rfl⟩

/-! ### The snapshot read back -/

theorem bitsValue_encodeBits_natCast {n : Nat} (h : n < 2 ^ 32) : bitsValue (encodeBits n) = n := by
  rw [bitsValue_encodeBits]
  omega

@[simp] theorem wordOfBits_encodeWord (w : Word) : wordOfBits (encodeWord w) = w := by
  rw [wordOfBits, encodeWord, bitsValue_encodeBits_natCast w.isLt, BitVec.ofNat_toNat, BitVec.setWidth_eq]

/-- The registers a snapshot shows. -/
theorem snapshot_regs_read (S : State) : (snapshot S).regs.map wordOfBits = S.regs.toList := by
  simp [snapshot, Function.comp_def]

/-- The memory entry a snapshot's pair of strings shows. -/
def cellOfBits (p : BitString × BitString) : Nat × Word := (bitsValue p.1, wordOfBits p.2)

/-- A canonical memory is read back from its snapshot: each address is below 2^32, so its 32 characters spell it. -/
theorem snapshot_mem_read {S : State} (h : S.mem.wf) : (snapshot S).mem.map cellOfBits = S.mem := by
  rw [snapshot, List.map_map]
  refine (List.map_congr_left fun p hp => ?_).trans (List.map_id _)
  simp [cellOfBits, bitsValue_encodeBits_natCast (h.2 p hp)]

/-- Settles O57: every part of the state is read back from the snapshot. -/
theorem snapshotShowsTheState : Obligations.SnapshotShowsTheState := by
  intro S T hS hT h
  have hword {v w : Word} (hvw : encodeWord v = encodeWord w) : w = v := by
    rw [← wordOfBits_encodeWord w, ← hvw, wordOfBits_encodeWord]
  have hregs : T.regs = S.regs :=
    Vector.toList_inj.mp (by rw [← snapshot_regs_read, ← snapshot_regs_read, h])
  refine ⟨hword (congrArg Snapshot.pc h), ⟨hword (congrArg Snapshot.hi h), hword (congrArg Snapshot.lo h)⟩,
    fun r _ => ?_, ?_⟩
  · rw [State.reg, hregs, State.reg]
  · rw [← snapshot_mem_read hT, ← h, snapshot_mem_read hS]

end Sys2Proof.Machine
end

section
/-! PROOFS. The PC's advance (10_state.md R28) and register 0 (R22). -/

namespace Sys2Proof.Machine

theorem uint_nextPc (pc : Word) : uint (nextPc pc) = (uint pc + 4) % 2 ^ 32 := by
  rw [nextPc, uint, word, BitVec.toNat_ofInt]
  omega

/-- Settles O11: the advance as a sum of numbers, and its value at the last aligned address. -/
theorem pcAdvanceWraps : Obligations.PcAdvanceWraps := ⟨uint_nextPc, by decide⟩

/-- Settles O14: what each variant writes to its destination does not depend on the destination's index, so index 0 is
one case; and the read of register 0 is the one of any register. -/
theorem registerZeroIsOrdinary : Obligations.RegisterZeroIsOrdinary := by
  intro s t d i S
  exact ⟨⟨_, execAdd_eq 0 s t S, State.setReg_reg_same ..⟩, ⟨_, execSub_eq 0 s t S, State.setReg_reg_same ..⟩,
    fun v hv => ⟨_, execLis_some hv, State.setReg_reg_same ..⟩,
    fun v hlow hhigh hv => ⟨_, execLw_some ⟨hlow, hhigh⟩ hv, State.setReg_reg_same ..⟩,
    ⟨_, execAdd_eq d 0 0 S, State.setReg_reg_same ..⟩⟩

end Sys2Proof.Machine
end

section
/-! PROOFS. Memory as a map (20_memory.md R37, R43): a read sees the entry under its own address only, and a memory with
rising addresses is the set of its entries. -/

namespace Sys2Proof.Machine

variable {S T : State} {m n : Memory} {a : Nat} {v : Word}

/-- A read depends on the entry under its address only. -/
theorem memRead_congr (h : T.entry a = S.entry a) : memRead T a = memRead S a := by
  simp only [memRead, h]

/-- Settles O31: a read is the entry under its address, and the entries after a write are known. -/
theorem entriesAreIndependentKeys : Obligations.EntriesAreIndependentKeys := by
  refine fun S a v => ⟨memRead_some ?_, fun b hb => memRead_congr ?_⟩
  · rw [memWrite_entry, if_pos rfl]
  · rw [memWrite_entry, if_neg hb]

/-- In a memory with rising addresses a read finds exactly the listed words: no pair hides a later one. -/
theorem Memory.mem_iff_read?_eq_some (hm : m.Pairwise (fun p q => p.1 < q.1)) :
    (a, v) ∈ m ↔ m.read? a = some v := by
  induction m with
  | nil => simp
  | cons p m ih =>
    obtain ⟨b, u⟩ := p
    obtain ⟨hhead, htail⟩ := List.pairwise_cons.mp hm
    rw [List.mem_cons, ih htail, Memory.read?]
    by_cases hab : b = a
    · subst hab
      have hnot : Memory.read? m b ≠ some v := fun h => Nat.lt_irrefl b (hhead (b, v) ((ih htail).mpr h))
      simp [hnot, eq_comm]
    · simp [hab, Ne.symm hab]

/-- Two memories with rising addresses and the same entries are the same list. -/
theorem Memory.eq_of_read?_eq (hm : m.Pairwise (fun p q => p.1 < q.1)) (hn : n.Pairwise (fun p q => p.1 < q.1))
    (h : ∀ a, m.read? a = n.read? a) : m = n := by
  have : Std.Asymm (fun p q : Nat × Word => p.1 < q.1) := ⟨fun _ _ hpq hqp => Nat.lt_asymm hpq hqp⟩
  refine List.Pairwise.eq_of_mem_iff hm hn fun ⟨a, v⟩ => ?_
  rw [Memory.mem_iff_read?_eq_some hm, Memory.mem_iff_read?_eq_some hn, h]

/-- Writing the word an address already holds changes nothing (20_memory.md R43). -/
theorem Memory.write_of_read?_eq_some (hm : m.Pairwise (fun p q => p.1 < q.1)) (h : m.read? a = some v) :
    m.write a v = m := by
  refine Memory.eq_of_read?_eq (Memory.write_sorted hm a v) hm fun b => ?_
  rw [Memory.read?_write]
  split
  case isTrue hb => rw [hb, h]
  case isFalse => rfl

/-- Settles O32: the second of two equal writes writes the word its address already holds. -/
theorem canonicalMemoryIsItsEntries : Obligations.CanonicalMemoryIsItsEntries :=
  ⟨fun m a v hm => Memory.write_of_read?_eq_some (Memory.write_sorted hm.1 a v) (Memory.read?_write_same m a v),
    fun _ _ _ hm => Memory.write_of_read?_eq_some hm.1, fun _ _ hm hn => Memory.eq_of_read?_eq hm.1 hn.1⟩

end Sys2Proof.Machine
end

section
/-! PROOFS. A store and the step after it (20_memory.md R50): the stored word is fetched, or read as data by a `Lis`. -/

namespace Sys2Proof.Machine

variable {S T : State} {w : Word}

theorem step_of_fetches (h : Fetches S w) : step S = exec (decode w) S := by
  obtain ⟨hrun, hsentinel, haligned, hentry⟩ := h
  exact step_execute (startStep_fetched hrun hsentinel haligned hentry)

/-- The advance keeps the PC a multiple of 4, over the wrap at 2^32 too (10_state.md R28). -/
theorem nextPc_aligned {pc : Word} (h : uint pc % 4 = 0) : uint (nextPc pc) % 4 = 0 := by
  rw [uint_nextPc]
  omega

theorem nextPc_nextPc (pc : Word) : nextPc (nextPc pc) = word ((uint pc : Int) + 8) := by
  refine BitVec.eq_of_toNat_eq ?_
  rw [← uint, uint_nextPc, uint_nextPc, word, BitVec.toNat_ofInt]
  omega

/-- A `Sw` that leaves the block running goes on to the next address, and its effective address holds the word. -/
theorem step_sw_completed {t s : Reg} {i : BitVec 16} (hw : Fetches S w) (hsw : decode w = .sw t s i)
    (h : step S = .next T) (hrun : T.status = .running) :
    T.pc = nextPc S.pc ∧ ∀ a : Nat, effectiveAddress S s i = a → T.entry a = some (S.reg t) := by
  rw [step_of_fetches hw, hsw] at h
  by_cases hr : addressInRange (effectiveAddress S s i)
  · cases h.symm.trans (execSw_in hr)
    refine ⟨rfl, fun a ha => ?_⟩
    rw [memWrite_entry, ha, Int.toNat_natCast, if_pos rfl]
  · cases h.symm.trans (execSw_out hr)
    cases hrun

/-- Settles O30: the stored word is the entry under the next PC, or under the one after it. -/
theorem storeIsSeenByNextFetch : Obligations.StoreIsSeenByNextFetch := by
  intro S T w t s i hw hsw h hrun hsentinel
  obtain ⟨hpc, hstored⟩ := step_sw_completed hw hsw h hrun
  obtain ⟨-, -, haligned, -⟩ := hw
  have hfetches {v : Word} (hv : T.entry (uint T.pc) = some v) : Fetches T v :=
    ⟨hrun, hsentinel, hpc ▸ nextPc_aligned haligned, hv⟩
  refine ⟨fun hcode => step_of_fetches (hfetches (hpc ▸ hstored _ hcode)), fun v d hdata hv hlis => ?_⟩
  have hword : T.entry (uint (nextPc T.pc)) = some (S.reg t) := by
    rw [hpc, nextPc_nextPc]
    exact hstored _ hdata
  have hstep : step T = .next ((T.setReg d (S.reg t)).setPc (nextPc (nextPc T.pc))) := by
    rw [step_of_fetches (hfetches hv), hlis]
    exact execLis_some hword
  exact ⟨_, hstep, hrun, State.setReg_reg_same ..⟩

end Sys2Proof.Machine
end

section
/-! PROOFS. The machine's invariant (60_exceptions.md R107, R108): a launch establishes it and every step keeps it. -/

namespace Sys2Proof.Machine

variable {S T : State} {a : Nat}

/-! ### The memory of a program (70_reset_and_hazards.md R125) -/

theorem address_of_mem_placeProgram {ws : List Word} {p : Nat × Word} (h : p ∈ placeProgram ws a) :
    a ≤ p.1 ∧ p.1 < a + 4 * ws.length := by
  induction ws generalizing a with
  | nil => cases h
  | cons w ws ih =>
    rw [List.length_cons]
    rcases List.mem_cons.mp h with rfl | h
    · exact ⟨Nat.le_refl a, by omega⟩
    · obtain ⟨hlow, hhigh⟩ := ih h
      omega

theorem placeProgram_sorted (ws : List Word) (a : Nat) :
    (placeProgram ws a).Pairwise (fun p q => p.1 < q.1) := by
  induction ws generalizing a with
  | nil => exact List.Pairwise.nil
  | cons w ws ih =>
    refine List.pairwise_cons.mpr ⟨fun p hp => ?_, ih (a + 4)⟩
    obtain ⟨hlow, -⟩ := address_of_mem_placeProgram hp
    show a < p.1
    omega

/-- A program a launch accepts fits below 2^32 (20_memory.md R36). -/
theorem placeProgram_wf {ws : List Word} (h : ws.length ≤ maxProgramWords) : (placeProgram ws 0).wf := by
  refine ⟨placeProgram_sorted ws 0, fun p hp => ?_⟩
  obtain ⟨-, hhigh⟩ := address_of_mem_placeProgram hp
  rw [maxProgramWords] at h
  omega

/-- A running state has the invariant as soon as its memory is canonical. -/
theorem Inv.of_running (hmem : S.mem.wf) (hrun : S.status = .running) : Inv S :=
  ⟨hmem, fun hterminal => absurd hrun hterminal⟩

/-- Settles O52: an accepted launch leaves a running block with the program as its memory. -/
theorem launchMeetsInvariant : Obligations.LaunchMeetsInvariant := by
  intro S T input1 input2 program h
  rw [launch] at h
  split at h
  case isTrue hlength =>
    cases h
    exact .of_running (placeProgram_wf hlength) rfl
  case isFalse => cases h

/-! ### Every step -/

/-- An instruction that raises no fault keeps the memory canonical: its one write is in range (44_load_store.md R95). -/
theorem Writes.apply_mem_wf {i : Instr} (hmem : S.mem.wf) (h : faultOf i S = none) :
    ((writesOf i S).apply S).mem.wf := by
  cases hcell : (writesOf i S).cell with
  | none => rwa [Writes.apply_mem_kept hcell]
  | some p =>
    obtain ⟨t, s, imm, rfl, ha, -⟩ := writesOf_cell hcell
    obtain ⟨hlow, hhigh⟩ := addressInRange_of_sw_noFault h
    rw [Writes.apply_mem_written hcell]
    exact Memory.write_wf hmem (by omega) _

/-- Settles O49: a step that changes the status only explains the new status by itself, and any other step leaves the
block running. -/
theorem stepKeepsInvariant : Obligations.StepKeepsInvariant := by
  intro S T hinv h
  by_cases hrun : S.status = .running
  case neg =>
    cases h.symm.trans (step_done (startStep_terminal hrun))
    exact hinv
  case pos =>
    rcases step_changes h with ⟨st, rfl⟩ | ⟨w, hw, hf, rfl⟩
    · have hback : (S.setStatus st).setStatus .running = S := by rw [← hrun]; rfl
      exact ⟨hinv.memWf, fun _ => hback.symm ▸ h⟩
    · exact .of_running (Writes.apply_mem_wf hinv.memWf hf) hrun

end Sys2Proof.Machine
end

section
/-! PROOFS. A step reads one parameter only, `SENTINEL` (20_memory.md R44, R45): other values of the two others are
carried along unchanged. -/

namespace Sys2Proof.Machine

variable {S T : State} {c : Config}

/-- The start of a step reads the run status, the PC, `SENTINEL` and memory only: from two states alike in these it
changes the status alike, or fetches the same word. -/
theorem startStep_congr (hst : T.status = S.status) (hpc : T.pc = S.pc) (hsentinel : T.cfg.sentinel = S.cfg.sentinel)
    (hmem : T.mem = S.mem) :
    (∃ st, startStep S = .done (S.setStatus st) ∧ startStep T = .done (T.setStatus st)) ∨
      ∃ w, startStep S = .execute w ∧ startStep T = .execute w := by
  by_cases hrun : S.status = .running
  case neg =>
    refine .inl ⟨S.status, startStep_terminal hrun, ?_⟩
    rw [startStep_terminal (hst ▸ hrun), ← hst]
    rfl
  case pos =>
    by_cases hhalt : S.pc = S.cfg.sentinel
    · exact .inl ⟨.halted, startStep_sentinel hrun hhalt,
        startStep_sentinel (hst.trans hrun) (by rw [hpc, hsentinel, hhalt])⟩
    · have hfetch : fetch T = fetch S := by simp only [fetch, memRead, State.entry, hpc, hmem]
      simp only [startStep, hst, hrun, hpc, hsentinel, hhalt, hfetch, if_false]
      split
      · exact .inr ⟨_, rfl, rfl⟩
      · exact .inl ⟨_, rfl, rfl⟩

/-- The parameters replaced. -/
def State.setCfg (S : State) (c : Config) : State := { S with cfg := c }

/-- An instruction reads no parameter and keeps them. -/
theorem afterExec_setCfg (i : Instr) (S : State) (c : Config) :
    afterExec i (S.setCfg c) = (afterExec i S).setCfg c := by
  have hreads : AgreeOnReads i S (S.setCfg c) := ⟨rfl, rfl, fun _ _ => rfl⟩
  cases hf : faultOf i S with
  | some k =>
    rw [afterExec_of_fault hf, afterExec_of_fault ((faultOf_congr hreads).trans hf)]
    rfl
  | none =>
    rw [afterExec_of_noFault hf, afterExec_of_noFault ((faultOf_congr hreads).trans hf), writesOf_congr hreads]
    rfl

theorem stepState_setCfg (h : c.sentinel = S.cfg.sentinel) : stepState (S.setCfg c) = (stepState S).setCfg c := by
  rcases startStep_congr (S := S) (T := S.setCfg c) rfl rfl h rfl with ⟨st, hS, hT⟩ | ⟨w, hS, hT⟩
  · rw [stepState_done hS, stepState_done hT]
    rfl
  · rw [stepState_execute hS, stepState_execute hT, afterExec_setCfg]

theorem step_keeps_cfg (h : step S = .next T) : T.cfg = S.cfg := by
  rcases step_changes h with ⟨st, rfl⟩ | ⟨w, -, -, rfl⟩
  · exact State.setStatus_cfg ..
  · exact Writes.apply_cfg ..

@[simp] theorem stepState_cfg (S : State) : (stepState S).cfg = S.cfg := by
  obtain ⟨T, hT⟩ := stepAlwaysAnswersNext S
  rw [stepState_eq hT, step_keeps_cfg hT]

theorem stepsState_setCfg (n : Nat) (h : c.sentinel = S.cfg.sentinel) :
    stepsState n (S.setCfg c) = (stepsState n S).setCfg c := by
  induction n generalizing S with
  | zero => rfl
  | succ n ih =>
    rw [stepsState, stepState_setCfg h, ih (by rw [h, stepState_cfg]), stepsState]

/-- Settles O47: the changed parameters agree on `SENTINEL`, the one a step reads. -/
theorem stackTopAndOutputPortUnread : Obligations.StackTopAndOutputPortUnread := by
  intro S top port n
  exact stepsState_setCfg n rfl

end Sys2Proof.Machine
end

section
/-! PROOFS. The fields of 30_encoding.md R53 make up the whole word, so the two formats (R54, R55) can be read back. -/

namespace Sys2Proof.Laws

variable {w : Word} {s t d : Reg} {fn op : BitVec 6} {i : BitVec 16}

/-- The three fields both formats begin with, side by side, are the upper half of the word. -/
theorem op_s_t_append (w : Word) :
    fieldOp w ++ BitVec.ofFin (w := 5) (fieldS w) ++ BitVec.ofFin (w := 5) (fieldT w) = w.extractLsb' 16 16 := by
  simp only [fieldOp, fieldS, fieldT, BitVec.ofFin_toFin]
  rw [BitVec.extractLsb'_append_extractLsb'_eq_extractLsb' (show 26 = 21 + 5 from rfl),
    BitVec.extractLsb'_append_extractLsb'_eq_extractLsb' (show 21 = 16 + 5 from rfl)]

/-- The six fields of the register format, side by side, are the word. -/
theorem encodeR_eq_iff : encodeR s t d fn = w ↔ HasFieldsR w s t d fn := by
  constructor
  case mp =>
    rintro rfl
    exact encodeR_fields s t d fn
  case mpr =>
    rintro ⟨hop, rfl, rfl, rfl, hsa, rfl⟩
    rw [encodeR, ← BitVec.ofNat_eq_ofNat, ← hop, ← BitVec.ofNat_eq_ofNat, ← hsa, op_s_t_append]
    simp only [fieldD, fieldSa, fieldFn, BitVec.ofFin_toFin]
    rw [BitVec.extractLsb'_append_extractLsb'_eq_extractLsb' (show 16 = 11 + 5 from rfl),
      BitVec.extractLsb'_append_extractLsb'_eq_extractLsb' (show 11 = 6 + 5 from rfl),
      BitVec.extractLsb'_append_extractLsb'_eq_extractLsb' (show 6 = 0 + 6 from rfl)]
    exact BitVec.extractLsb'_eq_self

/-- The four fields of the immediate format, side by side, are the word. -/
theorem encodeI_eq_iff : encodeI op s t i = w ↔ HasFieldsI w op s t i := by
  constructor
  case mp =>
    rintro rfl
    exact encodeI_fields op s t i
  case mpr =>
    rintro ⟨rfl, rfl, rfl, rfl⟩
    rw [encodeI, op_s_t_append, fieldI,
      BitVec.extractLsb'_append_extractLsb'_eq_extractLsb' (show 16 = 0 + 16 from rfl)]
    exact BitVec.extractLsb'_eq_self

@[simp] theorem fieldS_encodeR : fieldS (encodeR s t d fn) = s := by
  obtain ⟨-, hs, -⟩ := encodeR_fields s t d fn
  exact hs

@[simp] theorem fieldT_encodeR : fieldT (encodeR s t d fn) = t := by
  obtain ⟨-, -, ht, -⟩ := encodeR_fields s t d fn
  exact ht

@[simp] theorem fieldD_encodeR : fieldD (encodeR s t d fn) = d := by
  obtain ⟨-, -, -, hd, -⟩ := encodeR_fields s t d fn
  exact hd

@[simp] theorem fieldS_encodeI : fieldS (encodeI op s t i) = s := by
  obtain ⟨-, hs, -⟩ := encodeI_fields op s t i
  exact hs

@[simp] theorem fieldT_encodeI : fieldT (encodeI op s t i) = t := by
  obtain ⟨-, -, ht, -⟩ := encodeI_fields op s t i
  exact ht

@[simp] theorem fieldI_encodeI : fieldI (encodeI op s t i) = i := by
  obtain ⟨-, -, -, hi⟩ := encodeI_fields op s t i
  exact hi

end Sys2Proof.Laws
end

section
/-! PROOFS. The rows of the mask/pattern table (30_encoding.md R60): no word matches two of them (R61), and the words a
row accepts are the ones its own instruction encodes to. -/

namespace Sys2Proof

open Laws

variable {w : Word} {r q : TableRow}

theorem TableRow.accepts_iff : r.accepts w = true ↔ w &&& r.mask = r.pattern := beq_iff_eq

/-! ### No word matches two rows -/

theorem decodeTable_fixedBits_differ :
    decodeTable.Pairwise fun r q => r.mask &&& q.mask &&& (r.pattern ^^^ q.pattern) ≠ 0 := by decide

/-- On the bits fixed in both rows, a word both accept has the two patterns. -/
theorem TableRow.not_accepts_both (h : r.mask &&& q.mask &&& (r.pattern ^^^ q.pattern) ≠ 0) :
    ¬ (r.accepts w = true ∧ q.accepts w = true) := by
  rintro ⟨hr, hq⟩
  rw [TableRow.accepts_iff] at hr hq
  apply h
  rw [← hr, ← hq]
  ext k hk
  simp only [BitVec.getElem_and, BitVec.getElem_xor, BitVec.ofNat_eq_ofNat, BitVec.getElem_zero]
  cases r.mask[k] <;> cases q.mask[k] <;> simp

theorem decodeTable_disjoint :
    decodeTable.Pairwise fun r q => ∀ w : Word, ¬ (r.accepts w = true ∧ q.accepts w = true) :=
  decodeTable_fixedBits_differ.imp fun h _ => TableRow.not_accepts_both h

/-- A word is accepted by one row of the table at most. -/
theorem eq_of_accepts (hr : r ∈ decodeTable) (hq : q ∈ decodeTable) (hrw : r.accepts w = true)
    (hqw : q.accepts w = true) : r = q := by
  have : Std.Symm fun r q : TableRow => ¬ (r.accepts w = true ∧ q.accepts w = true) := ⟨fun _ _ h hqr => h hqr.symm⟩
  have hdisjoint : decodeTable.Pairwise fun r q => ¬ (r.accepts w = true ∧ q.accepts w = true) :=
    decodeTable_disjoint.imp fun h => h w
  by_contra hne
  exact hdisjoint.forall hr hq hne ⟨hrw, hqw⟩

/-! ### The selected row -/

theorem mem_and_accepts_of_find? {table : List TableRow} (h : table.find? (fun r => r.accepts w) = some r) :
    r ∈ table ∧ r.accepts w = true := ⟨List.mem_of_find?_eq_some h, List.find?_some (p := (TableRow.accepts · w)) h⟩

/-- The order of the rows plays no part in which row is selected. -/
theorem firstRow_eq_some_iff : firstRow w = some r ↔ r ∈ decodeTable ∧ r.accepts w = true := by
  constructor
  case mp => exact mem_and_accepts_of_find?
  case mpr =>
    rintro ⟨hr, hrw⟩
    obtain ⟨q, hq⟩ := Option.isSome_iff_exists.mp (List.find?_isSome (p := (TableRow.accepts · w)).mpr ⟨r, hr, hrw⟩)
    obtain ⟨hqmem, hqw⟩ := mem_and_accepts_of_find? hq
    rw [firstRow, hq, eq_of_accepts hr hqmem hrw hqw]

theorem firstRow_eq_none_iff : firstRow w = none ↔ ∀ r ∈ decodeTable, ¬ r.accepts w = true := List.find?_eq_none

theorem firstRow_ne_none_iff : firstRow w ≠ none ↔ ∃ r ∈ decodeTable, r.accepts w = true := by
  simp [firstRow_eq_none_iff]

theorem decode_of_accepts (hr : r ∈ decodeTable) (hrw : r.accepts w = true) : decode w = r.build w := by
  simp only [decode, firstRow_eq_some_iff.mpr ⟨hr, hrw⟩]

theorem decode_of_firstRow_none (h : firstRow w = none) : decode w = .unknown w := by
  simp only [decode, h]

/-! ### A row accepts the words of its instruction -/

theorem pattern_subset_mask : ∀ r ∈ decodeTable, r.pattern &&& r.mask = r.pattern := by decide

/-- Every bit of a five-bit index is kept. -/
theorem and_thirtyOne (r : Reg) : r &&& 31 = r := by decide +revert

/-- The instruction a row builds from a word encodes to that word with the row's fixed bits put in: field by field, a
field the mask covers has the pattern's value and a free one has the word's. -/
theorem encode_build (hr : r ∈ decodeTable) (w : Word) :
    encode (r.build w) = r.pattern ||| (w &&& ~~~r.mask) := by
  have himm : w.extractLsb' 0 16 &&& 65535#16 = w.extractLsb' 0 16 := BitVec.and_allOnes
  revert r
  simp only [decodeTable, List.cons_append, List.nil_append, List.forall_mem_cons, encode, encodeR_eq_iff,
    encodeI_eq_iff, HasFieldsR, HasFieldsI, fieldOp, fieldS, fieldT, fieldD, fieldSa, fieldFn, fieldI,
    BitVec.extractLsb'_or, BitVec.extractLsb'_and]
  simp [-BitVec.toFin_extractLsb', and_thirtyOne, himm]

/-- A row accepts exactly the words that its own instruction encodes to (30_encoding.md R58, R60). -/
theorem accepts_iff_encode_build (hr : r ∈ decodeTable) : r.accepts w = true ↔ encode (r.build w) = w := by
  have hfixed := pattern_subset_mask r hr
  rw [TableRow.accepts_iff, encode_build hr]
  constructor
  case mp =>
    intro h
    rw [← h, ← BitVec.and_or_distrib_left, BitVec.or_not_self, BitVec.and_allOnes]
  case mpr =>
    intro h
    rw [← h, BitVec.and_or_distrib_right, BitVec.and_assoc, BitVec.not_and_self,
      BitVec.ofNat_eq_ofNat, BitVec.and_zero, BitVec.or_zero, hfixed]

theorem exists_accepts_iff : (∃ r ∈ decodeTable, r.accepts w = true) ↔ ∃ r ∈ decodeTable, encode (r.build w) = w :=
  exists_congr fun _ => and_congr_right accepts_iff_encode_build

/-- The fields of 30_encoding.md R62 say what the table says. Each side is a disjunction of seventeen conjunctions of
field values, in another order. -/
theorem recognizedByFields_iff : recognizedByFields w = true ↔ ∃ r ∈ decodeTable, r.accepts w = true := by
  rw [exists_accepts_iff]
  simp only [decodeTable, List.cons_append, List.nil_append, List.exists_mem_cons_iff, List.not_mem_nil, false_and,
    exists_false, or_false, encode, encodeR_eq_iff, encodeI_eq_iff, HasFieldsR, HasFieldsI, true_and, and_true]
  simp only [recognizedByFields, immediateOpcodes, threeRegisterFunctions, sourcePairFunctions, destinationFunctions,
    jumpFunctions, List.contains_cons, List.contains_nil, Bool.or_eq_true, Bool.and_eq_true, beq_iff_eq, Bool.or_false,
    and_or_left, or_and_right]
  exact iff_of_eq (by ac_rfl)

theorem firstRow_eq_none_iff_recognizedByFields : firstRow w = none ↔ recognizedByFields w = false := by
  rw [← not_iff_not, Bool.not_eq_false, recognizedByFields_iff]
  exact firstRow_ne_none_iff

end Sys2Proof
end

section
/-! PROOFS. The table row by row (30_encoding.md R59, R60), and the decoder and the encoder as inverse functions. -/

namespace Sys2Proof

open Laws

variable {w : Word} {r : TableRow} {i : Instr}

/-- A word with the fixed bits of the row at a place of the table is decoded by that row. -/
theorem decode_of_fixedBits (k : Nat) (hk : k < decodeTable.length := by decide)
    (h : w &&& decodeTable[k].mask = decodeTable[k].pattern) : decode w = decodeTable[k].build w :=
  decode_of_accepts (List.getElem_mem hk) (TableRow.accepts_iff.mpr h)

/-- Settles O2: a row that accepts the word is the selected one, whatever its place. -/
theorem tableRowsDecode : Obligations.TableRowsDecode := fun w =>
  ⟨decode_of_fixedBits 0, decode_of_fixedBits 1, decode_of_fixedBits 2, decode_of_fixedBits 3, decode_of_fixedBits 4,
    decode_of_fixedBits 5, decode_of_fixedBits 6, decode_of_fixedBits 7, decode_of_fixedBits 8, decode_of_fixedBits 9,
    decode_of_fixedBits 10, decode_of_fixedBits 11, decode_of_fixedBits 12, decode_of_fixedBits 13,
    decode_of_fixedBits 14, decode_of_fixedBits 15, decode_of_fixedBits 16,
    fun h => decode_of_firstRow_none (firstRow_eq_none_iff.mpr fun r hr hrw => h r hr (TableRow.accepts_iff.mp hrw))⟩

/-- An instruction that a row builds back from the instruction's own word is decoded by that row. -/
theorem decode_encode_of_row (k : Nat) (hk : k < decodeTable.length := by decide)
    (hi : decodeTable[k].build (encode i) = i) : decode (encode i) = i := by
  have hr : decodeTable[k] ∈ decodeTable := List.getElem_mem hk
  rw [decode_of_accepts hr ((accepts_iff_encode_build hr).mpr (congrArg encode hi)), hi]

/-- Settles O3: each variant's row reads the operands back from the fields the encoder put them in; an unrecognized
word is read by no row. -/
theorem decodeOfEncode : Obligations.DecodeOfEncode := by
  intro i hwf
  cases i with
  | add d s t => exact decode_encode_of_row 0 (hi := by simp [decodeTable, encode])
  | sub d s t => exact decode_encode_of_row 1 (hi := by simp [decodeTable, encode])
  | mult s t => exact decode_encode_of_row 2 (hi := by simp [decodeTable, encode])
  | multu s t => exact decode_encode_of_row 3 (hi := by simp [decodeTable, encode])
  | div s t => exact decode_encode_of_row 4 (hi := by simp [decodeTable, encode])
  | divu s t => exact decode_encode_of_row 5 (hi := by simp [decodeTable, encode])
  | mfhi d => exact decode_encode_of_row 6 (hi := by simp [decodeTable, encode])
  | mflo d => exact decode_encode_of_row 7 (hi := by simp [decodeTable, encode])
  | lis d => exact decode_encode_of_row 8 (hi := by simp [decodeTable, encode])
  | lw t s imm => exact decode_encode_of_row 9 (hi := by simp [decodeTable, encode])
  | sw t s imm => exact decode_encode_of_row 10 (hi := by simp [decodeTable, encode])
  | slt d s t => exact decode_encode_of_row 11 (hi := by simp [decodeTable, encode])
  | sltu d s t => exact decode_encode_of_row 12 (hi := by simp [decodeTable, encode])
  | beq s t imm => exact decode_encode_of_row 13 (hi := by simp [decodeTable, encode])
  | bne s t imm => exact decode_encode_of_row 14 (hi := by simp [decodeTable, encode])
  | jr s => exact decode_encode_of_row 15 (hi := by simp [decodeTable, encode])
  | jalr s => exact decode_encode_of_row 16 (hi := by simp [decodeTable, encode])
  | unknown w =>
    have hunrecognized : recognizedByFields w = false := by simpa [Instr.wellFormed] using hwf
    exact decode_of_firstRow_none (firstRow_eq_none_iff_recognizedByFields.mpr hunrecognized)

/-- Only the catch-all builds an instruction that can be ill formed. -/
theorem build_wellFormed (hr : r ∈ decodeTable) (w : Word) : (r.build w).wellFormed = true := by
  revert r
  simp [decodeTable, Instr.wellFormed]

/-- Settles O4: the row that accepts a word builds an instruction which encodes to it; `unknown` keeps the word. -/
theorem encodeOfDecode : Obligations.EncodeOfDecode := by
  intro w
  cases h : firstRow w with
  | none =>
    rw [decode_of_firstRow_none h]
    exact ⟨rfl, by simp [Instr.wellFormed, firstRow_eq_none_iff_recognizedByFields.mp h]⟩
  | some r =>
    obtain ⟨hr, hrw⟩ := firstRow_eq_some_iff.mp h
    rw [decode_of_accepts hr hrw]
    exact ⟨(accepts_iff_encode_build hr).mp hrw, build_wellFormed hr w⟩

/-- Settles O1, by running the decoder on the written words. -/
theorem decodesSpecWords : Obligations.DecodesSpecWords := by
  unfold Obligations.DecodesSpecWords
  decide

end Sys2Proof
end

section
/-! PROOFS. How many words the table recognizes (30_encoding.md R61). -/

namespace Sys2Proof

/-- A bit vector as the function of its bits. -/
def bitsEquiv (n : Nat) : BitVec n ≃ (Fin n → Bool) where
  toFun w k := w[k]
  invFun := BitVec.ofFnLE
  left_inv w := by ext k hk; simp
  right_inv f := by funext k; simp

/-- A fixed bit leaves one choice and a free bit two. -/
theorem card_fixedBits {n : Nat} {mask pattern : BitVec n} (h : pattern &&& mask = pattern) :
    Nat.card { w : BitVec n // w &&& mask = pattern } = ∏ k : Fin n, if mask[k] then 1 else 2 := by
  have hbits (w : BitVec n) : w &&& mask = pattern ↔ ∀ k : Fin n, (bitsEquiv n w k && mask[k]) = pattern[k] := by
    simp [← BitVec.getElem_and, BitVec.eq_of_getElem_eq_iff, bitsEquiv, Fin.forall_iff]
  have hfactor (k : Fin n) : Nat.card { b // (b && mask[k]) = pattern[k] } = if mask[k] then 1 else 2 := by
    have hk : (pattern[k] && mask[k]) = pattern[k] := by
      rw [Fin.getElem_fin, Fin.getElem_fin, ← BitVec.getElem_and, h]
    rw [Nat.card_eq_fintype_card]
    generalize mask[k] = m, pattern[k] = p at hk ⊢
    revert m p
    decide
  calc Nat.card { w : BitVec n // w &&& mask = pattern }
      = Nat.card { f : Fin n → Bool // ∀ k, (f k && mask[k]) = pattern[k] } :=
        Nat.card_congr ((bitsEquiv n).subtypeEquiv hbits)
    _ = Nat.card (∀ k : Fin n, { b // (b && mask[k]) = pattern[k] }) :=
        Nat.card_congr (Equiv.subtypePiEquivPi (p := fun k b => (b && mask[k]) = pattern[k]))
    _ = ∏ k : Fin n, if mask[k] then 1 else 2 := by rw [Nat.card_pi, Finset.prod_congr rfl fun k _ => hfactor k]

/-- Rows that share no word accept together as many as they accept each. -/
theorem card_exists_accepts (table : List TableRow)
    (h : table.Pairwise fun r q => ∀ w : Word, ¬ (r.accepts w = true ∧ q.accepts w = true)) :
    Nat.card { w : Word // ∃ r ∈ table, r.accepts w = true } =
      (table.map fun r => Nat.card { w : Word // r.accepts w = true }).sum := by
  induction table with
  | nil => simp
  | cons r table ih =>
    obtain ⟨hhead, htail⟩ := List.pairwise_cons.mp h
    have hdisjoint : Disjoint (fun w : Word => r.accepts w = true) (fun w => ∃ q ∈ table, q.accepts w = true) :=
      Pi.disjoint_iff.mpr fun w => Prop.disjoint_iff.mpr fun ⟨hrw, q, hq, hqw⟩ => hhead q hq w ⟨hrw, hqw⟩
    simp only [List.exists_mem_cons_iff, List.map_cons, List.sum_cons, ← ih htail]
    rw [Nat.card_congr (subtypeOrEquiv _ _ hdisjoint), Nat.card_sum]

/-- The recognized words: two for each free bit of a row, over the rows. -/
theorem card_recognized : Nat.card { w : Word // firstRow w ≠ none } = 268570784 := by
  have hrow (r : TableRow) (hr : r ∈ decodeTable) :
      Nat.card { w : Word // r.accepts w = true } = ∏ k : Fin 32, if r.mask[k] then 1 else 2 := by
    simp only [TableRow.accepts_iff]
    exact card_fixedBits (pattern_subset_mask r hr)
  simp only [firstRow_ne_none_iff]
  rw [card_exists_accepts decodeTable decodeTable_disjoint, List.map_congr_left hrow]
  decide

theorem card_unrecognized : Nat.card { w : Word // firstRow w = none } = 4026396512 := by
  have htotal : Nat.card { w : Word // firstRow w = none } + Nat.card { w : Word // firstRow w ≠ none } = 2 ^ 32 := by
    rw [← Nat.card_sum, Nat.card_congr (Equiv.sumCompl _), Nat.card_congr BitVec.equivFin.toEquiv, Nat.card_fin]
  rw [card_recognized] at htotal
  exact Nat.eq_sub_of_add_eq htotal

/-- Settles O5: the fixed bits and the codes by inspection of the table, the disjointness of the rows from their fixed
bits, the order from that, and the counts from the free bits of each row. -/
theorem rowsAreDisjointAndCounted : Obligations.RowsAreDisjointAndCounted := by
  refine ⟨decodeTable_fixedBits_differ, by decide, by decide, decodeTable_disjoint, ?_, card_recognized,
    card_unrecognized⟩
  intro table hperm w
  cases h : table.find? (fun r => r.accepts w) with
  | none =>
    refine (firstRow_eq_none_iff.mpr fun r hr => ?_).symm
    exact List.find?_eq_none.mp h r (hperm.mem_iff.mpr hr)
  | some r =>
    obtain ⟨hr, hrw⟩ := mem_and_accepts_of_find? h
    exact (firstRow_eq_some_iff.mpr ⟨hperm.mem_iff.mp hr, hrw⟩).symm

end Sys2Proof
end

section
/-! PROOFS. The step of an unrecognized word (46_unknown.md R105), and the step of a placed instruction (30_encoding.md
R63; log entry 3). -/

namespace Sys2Proof.Machine

/-- Settles O6: the fields of R62 say what the table says, and `unknown` is executed by taking its fault. -/
theorem unknownWordsByFieldsFault : Obligations.UnknownWordsByFieldsFault := by
  refine ⟨fun _ => firstRow_eq_none_iff_recognizedByFields,
    firstRow_eq_none_iff_recognizedByFields.mpr (by decide), fun S w hw hnone => ?_⟩
  rw [step_of_fetches hw, decode_of_firstRow_none hnone]
  exact execUnknown_eq w S

/-- A step fetches at the PC of a placing: it is a multiple of 4 and not `SENTINEL`. -/
theorem fetchablePc_spec (S : State) : fetchablePc S ≠ S.cfg.sentinel ∧ uint (fetchablePc S) % 4 = 0 := by
  rw [fetchablePc]
  split
  case isTrue h => simpa [pcAligned, and_comm] using h
  case isFalse =>
    split
    case isTrue hzero => rw [hzero]; decide
    case isFalse hzero => exact ⟨Ne.symm hzero, rfl⟩

theorem uint_ne_uint_nextPc (pc : Word) : uint pc ≠ uint (nextPc pc) := by
  rw [uint_nextPc]
  omega

/-- The next step after a placing fetches the first word of the placed bits: the data word of a `Lis` is written under
another address. -/
theorem fetches_withFetchWord (S : State) (nbits w : Nat) :
    Fetches (S.withFetchWord nbits w) (BitVec.ofNat 32 (w % 2 ^ nbits)) := by
  obtain ⟨hsentinel, haligned⟩ := fetchablePc_spec S
  simp only [State.withFetchWord]
  split
  case isTrue => exact ⟨rfl, hsentinel, haligned, by simp [uint_ne_uint_nextPc]⟩
  case isFalse => exact ⟨rfl, hsentinel, haligned, by simp⟩

/-- Settles O8: the placed word is fetched, and the step executes what the decoder reads from it. -/
theorem stepRunsPlacedInstruction : Obligations.StepRunsPlacedInstruction := by
  intro S nbits w i hi
  cases hi
  exact step_of_fetches (fetches_withFetchWord S nbits w)

end Sys2Proof.Machine
end

section
/-! PROOFS. The execution cycle (40_execution_cycle.md): the order of the frame (R69 to R72), the PC a completed step
leaves (R76), and that a terminal state stays for any number of steps (R69). -/

namespace Sys2Proof.Machine

variable {S T : State} {w : Word}

/-! ### One step -/

theorem step_of_terminal (h : S.status ≠ .running) : step S = .next S := step_done (startStep_terminal h)

/-- Settles O7: each way the start of a step can go, with what the step then answers. -/
theorem stepFollowsTheFrame : Obligations.StepFollowsTheFrame := fun _ =>
  ⟨step_of_terminal,
    fun hrun hsentinel => step_done (startStep_sentinel hrun hsentinel),
    fun hrun hsentinel hmisaligned => step_done (startStep_misaligned hrun hsentinel hmisaligned),
    fun hrun hsentinel haligned habsent => step_done (startStep_absent hrun hsentinel haligned habsent),
    fun _ => step_of_fetches⟩

/-! ### The PC after a completed step (40_execution_cycle.md R76) -/

/-- A step that fetches takes the fault of the decoded instruction, or makes its writes. -/
theorem step_of_fetches_cases (hw : Fetches S w) (h : step S = .next T) :
    (∃ k, T = takeFault k S) ∨ T = (writesOf (decode w) S).apply S := by
  rw [step_of_fetches hw, exec_eq_afterExec] at h
  cases h
  cases hf : faultOf (decode w) S with
  | some k => exact .inl ⟨k, afterExec_of_fault hf⟩
  | none => exact .inr (afterExec_of_noFault hf)

/-- Settles O10: the written PC, by variant; the two advances of a `Lis` make up the 8 bytes of its length. -/
theorem pcAfterCompletedStep : Obligations.PcAfterCompletedStep := by
  intro S T w hw h
  rcases step_of_fetches_cases hw h with ⟨k, rfl⟩ | rfl
  · exact .inl ⟨k, takeFault_status k S⟩
  · obtain ⟨hrun, -⟩ := hw
    refine .inr ⟨hrun, ?_⟩
    rw [Writes.apply_pc]
    cases decode w with
    | lis d => exact nextPc_nextPc S.pc
    | _ => rfl

/-! ### Any number of steps -/

/-- A state that one step keeps is kept by any number of steps, in every machine. -/
theorem run_of_step_eq_self {M : Host.Core} {s : M.State} (h : M.step s = .next s) (n : Nat) : M.run n s = .next s := by
  induction n with
  | zero => rfl
  | succ n ih => simp only [Host.Core.run, h, ih]

/-- Settles O42: one step keeps a terminal state, so any number does. -/
theorem terminalStatesPersist : Obligations.TerminalStatesPersist := fun _ n hterminal =>
  run_of_step_eq_self (M := Sys2Proof.core) (step_of_terminal hterminal) n

end Sys2Proof.Machine
end

section
/-! PROOFS. The ALU (41_alu.md): a word is its two readings modulo 2^32, so sums and differences are one word under both
(R78); and `Add` and `Sub` complete from every state (R79, R80). -/

namespace Sys2Proof.Machine

variable {S T : State} {i : Instr} {d : Reg}

/-! ### Words and integers modulo 2^32 (00_scope.md R9) -/

theorem uint_word (n : Int) : (uint (word n) : Int) = n % 2 ^ 32 := by
  rw [uint, word, BitVec.toNat_ofInt]
  omega

theorem word_uint (a : Word) : word (uint a) = a := by
  rw [word, uint, BitVec.ofInt_natCast, BitVec.ofNat_toNat, BitVec.setWidth_eq]

theorem word_sint (a : Word) : word (sint a) = a := BitVec.ofInt_toInt

theorem word_add (m n : Int) : word (m + n) = word m + word n := BitVec.ofInt_add ..

theorem word_sub (m n : Int) : word (m - n) = word m - word n := by
  rw [Int.sub_eq_add_neg, word_add, BitVec.sub_eq_add_neg, ← BitVec.ofInt_neg]

/-- Both sides are the sum of the two words. -/
theorem word_sint_add_sint (a b : Word) : word (sint a + sint b) = word ((uint a : Int) + uint b) := by
  rw [word_add, word_add, word_sint, word_sint, word_uint, word_uint]

/-- Both sides are the difference of the two words. -/
theorem word_sint_sub_sint (a b : Word) : word (sint a - sint b) = word ((uint a : Int) - uint b) := by
  rw [word_sub, word_sub, word_sint, word_sint, word_uint, word_uint]

/-! ### The two results -/

theorem uint_aluAdd (a b : Word) : uint (aluAdd a b) = (uint a + uint b) % 2 ^ 32 := by
  exact_mod_cast uint_word (uint a + uint b)

theorem uint_aluSub (a b : Word) : (uint (aluSub a b) : Int) = ((uint a : Int) - uint b) % 2 ^ 32 := uint_word _

/-! ### What the instructions write and keep -/

/-- What an instruction that raises no fault writes to its register does not depend on the register's prior value. -/
theorem reg_of_exec {v : Word} (h : exec i S = .next T) (hf : faultOf i S = none)
    (hreg : (writesOf i S).reg = some (d, v)) : T.reg d = v := by
  cases h.symm.trans (exec_eq_afterExec i S)
  rw [afterExec_of_noFault hf, Writes.apply_reg_written hreg]

/-- The frame of an instruction that writes the PC and one general register. -/
theorem setReg_setPc_kept (S : State) (pc : Word) (d : Reg) (v : Word) :
    RegsKept S ((S.setPc pc).setReg d v) [d] ∧ HiLoKept S ((S.setPc pc).setReg d v) ∧
      EntriesKept S ((S.setPc pc).setReg d v) [] ∧ StatusKept S ((S.setPc pc).setReg d v) :=
  ⟨fun r hr => State.setReg_reg_ne _ d r v (List.ne_of_not_mem_cons hr), ⟨rfl, rfl⟩, fun _ _ => rfl, rfl, rfl⟩

/-- Settles O12: the adder's result goes to the destination, and the rest is kept. -/
theorem addWritesWrappedSum : Obligations.AddWritesWrappedSum := fun d s t S =>
  ⟨_, execAdd_eq d s t S, State.setReg_reg_same .., rfl, setReg_setPc_kept S ..⟩

/-- Settles O13: the subtractor's result goes to the destination, and the rest is kept. -/
theorem subWritesWrappedDifference : Obligations.SubWritesWrappedDifference := fun d s t S =>
  ⟨_, execSub_eq d s t S, State.setReg_reg_same .., rfl, setReg_setPc_kept S ..⟩

/-- Settles O15: the written word is the adder's or the subtractor's result on the two operands alone. -/
theorem aluResultsIndependentOfReading : Obligations.AluResultsIndependentOfReading := by
  refine ⟨fun a b => ⟨word_sint_add_sint a b, word_sint_sub_sint a b⟩, ?add, ?sub⟩
  case add =>
    intro d s t S T S' T' hs ht hS hT
    have hS' : S'.reg d = aluAdd (S.reg s) (S.reg t) := reg_of_exec hS rfl rfl
    have hT' : T'.reg d = aluAdd (T.reg s) (T.reg t) := reg_of_exec hT rfl rfl
    rw [hS', hT', ← hs, ← ht]
    exact ⟨rfl, uint_aluAdd _ _⟩
  case sub =>
    intro d s t S T S' T' hs ht hS hT
    have hS' : S'.reg d = aluSub (S.reg s) (S.reg t) := reg_of_exec hS rfl rfl
    have hT' : T'.reg d = aluSub (T.reg s) (T.reg t) := reg_of_exec hT rfl rfl
    rw [hS', hT', ← hs, ← ht]
    exact ⟨rfl, uint_aluSub _ _⟩

end Sys2Proof.Machine
end

section
/-! PROOFS. The multiply and divide unit (42_multiply_divide.md): `HI:LO` is the product modulo 2^64, so it is exact for
both multiplies (R81, R82); the two readings of a word differ by 2^32 where bit 31 is set, which gives the difference of
the two `HI` words (R83, R84). The variants of R85 to R88 and R90 to R93 fault. -/

namespace Sys2Proof.Machine

variable {S T : State} {s t : Reg}

/-! ### Words and products -/

theorem word_eq_word {m n : Int} (h : m % 2 ^ 32 = n % 2 ^ 32) : word m = word n :=
  BitVec.eq_of_toNat_eq (by exact_mod_cast (uint_word m).trans (h.trans (uint_word n).symm))

theorem word_mul (m n : Int) : word (m * n) = word m * word n := BitVec.ofInt_mul ..

theorem natCast_signedProduct (a b : Word) : (signedProduct a b : Int) = sint a * sint b % 2 ^ 64 :=
  toNat_emod_two_pow _ 64

theorem natCast_unsignedProduct (a b : Word) : (unsignedProduct a b : Int) = uint a * uint b := Int.natCast_mul ..

/-! ### The two halves of a product (42_multiply_divide.md R81) -/

theorem productHi_eq_word (p : Nat) : productHi p = word ((p : Int) / 2 ^ 32) := rfl

theorem productLo_eq_word_emod (p : Nat) : productLo p = word ((p : Int) % 2 ^ 32) := rfl

theorem productLo_eq_word (p : Nat) : productLo p = word p :=
  (productLo_eq_word_emod p).trans (word_eq_word (Int.emod_emod_of_dvd _ dvd_rfl))

/-- The two halves side by side are the product modulo 2^64. -/
theorem productHi_append_productLo (p : Nat) : productHi p ++ productLo p = BitVec.ofNat 64 p := by
  have hhi : (productHi p).toNat = p / 2 ^ 32 % 2 ^ 32 := by exact_mod_cast uint_word ((p / 2 ^ 32 : Nat) : Int)
  have hlo : (productLo p).toNat = p % 2 ^ 32 := by rw [productLo_eq_word]; exact_mod_cast uint_word p
  refine BitVec.eq_of_toNat_eq ?_
  rw [BitVec.toNat_append, ← Nat.shiftLeft_add_eq_or_of_lt (productLo p).isLt, Nat.shiftLeft_eq, hhi, hlo,
    BitVec.toNat_ofNat]
  omega

/-- A signed product of two words fits in 64 bits. -/
theorem toInt_signedProduct (a b : Word) : (BitVec.ofNat 64 (signedProduct a b)).toInt = sint a * sint b := by
  have hlow : -2 ^ 62 ≤ sint a * sint b := BitVec.le_toInt_mul_toInt
  have hhigh : sint a * sint b ≤ 2 ^ 62 := BitVec.toInt_mul_toInt_le
  rw [← BitVec.ofInt_natCast, BitVec.toInt_ofInt, natCast_signedProduct]
  calc (sint a * sint b % 2 ^ 64).bmod (2 ^ 64)
      _ = (sint a * sint b).bmod (2 ^ 64) := Int.emod_bmod _ (2 ^ 64)
      _ = sint a * sint b := Int.bmod_eq_of_le (by omega) (by omega)

/-- An unsigned product of two words fits in 64 bits. -/
theorem toNat_unsignedProduct (a b : Word) : (BitVec.ofNat 64 (unsignedProduct a b)).toNat = uint a * uint b := by
  have hlt : uint a * uint b < 2 ^ 32 * 2 ^ 32 := Nat.mul_lt_mul'' a.isLt b.isLt
  exact Nat.mod_eq_of_lt hlt

/-- The lower halves are one word: the product of the two words. -/
theorem productLo_signedProduct (a b : Word) : productLo (signedProduct a b) = a * b := by
  have hword : word (sint a * sint b % 2 ^ 64) = word (sint a * sint b) :=
    word_eq_word (Int.emod_emod_of_dvd _ ⟨2 ^ 32, rfl⟩)
  rw [productLo_eq_word, natCast_signedProduct, hword, word_mul, word_sint, word_sint]

theorem word_uint_mul_uint (a b : Word) : word ((uint a : Int) * uint b) = a * b := by
  rw [word_mul, word_uint, word_uint]

theorem productLo_unsignedProduct (a b : Word) : productLo (unsignedProduct a b) = a * b := by
  rw [productLo_eq_word, natCast_unsignedProduct, word_uint_mul_uint]

/-! ### The difference of the upper halves (42_multiply_divide.md R83, R84) -/

/-- Bit 31 weighs -2^31 in the signed reading and 2^31 in the unsigned one. -/
theorem uint_eq_sint_add (a : Word) : (uint a : Int) = sint a + a.msb.toNat * 2 ^ 32 := by
  rw [sint, BitVec.toInt_eq_msb_cond]
  cases a.msb <;> simp

theorem word_msb_mul_uint (a b : Word) : word (a.msb.toNat * uint b) = if a.msb then b else 0 := by
  cases a.msb <;> simp

theorem productHi_signedProduct (a b : Word) : productHi (signedProduct a b) = word (sint a * sint b / 2 ^ 32) := by
  rw [productHi_eq_word, natCast_signedProduct]
  exact word_eq_word (by omega)

/-- Each operand with bit 31 set adds 2^32 times the other one to the product, and both together a multiple of 2^64. -/
theorem uint_mul_uint_eq (a b : Word) : (uint a : Int) * uint b = sint a * sint b +
    (a.msb.toNat * uint b + b.msb.toNat * uint a - a.msb.toNat * b.msb.toNat * 2 ^ 32) * 2 ^ 32 := by
  rw [uint_eq_sint_add a, uint_eq_sint_add b]
  ring

theorem productHi_unsignedProduct (a b : Word) : productHi (unsignedProduct a b) =
    productHi (signedProduct a b) + (if a.msb then b else 0) + (if b.msb then a else 0) := by
  have hcarry : word (a.msb.toNat * b.msb.toNat * 2 ^ 32) = 0 := word_eq_word (n := 0) (Int.mul_emod_left ..)
  rw [productHi_eq_word, natCast_unsignedProduct, uint_mul_uint_eq, Int.add_mul_ediv_right _ _ (by decide), word_add,
    word_sub, word_add, hcarry, word_msb_mul_uint, word_msb_mul_uint, ← productHi_signedProduct, sub_zero, add_assoc]

/-! ### What the instructions write and keep -/

theorem hiLo_of_mult (h : exec (.mult s t) S = .next T) :
    T.hi = productHi (signedProduct (S.reg s) (S.reg t)) ∧ T.lo = productLo (signedProduct (S.reg s) (S.reg t)) := by
  cases h.symm.trans (execMult_eq s t S)
  exact ⟨rfl, rfl⟩

theorem hiLo_of_multu (h : exec (.multu s t) S = .next T) :
    T.hi = productHi (unsignedProduct (S.reg s) (S.reg t)) ∧
      T.lo = productLo (unsignedProduct (S.reg s) (S.reg t)) := by
  cases h.symm.trans (execMultu_eq s t S)
  exact ⟨rfl, rfl⟩

/-- The frame of an instruction that writes the PC and the pair `HI`, `LO`. -/
theorem setHiLo_setPc_kept (S : State) (pc h l : Word) :
    RegsKept S ((S.setPc pc).setHiLo h l) [] ∧ EntriesKept S ((S.setPc pc).setHiLo h l) [] ∧
      StatusKept S ((S.setPc pc).setHiLo h l) :=
  ⟨fun _ _ => rfl, fun _ _ => rfl, rfl, rfl⟩

/-- Settles O16: the halves of the signed product go to `HI` and `LO`, and the rest is kept. -/
theorem multWritesSignedProduct : Obligations.MultWritesSignedProduct := by
  intro s t S
  refine ⟨_, execMult_eq s t S, ?hi, ?lo, rfl, setHiLo_setPc_kept S ..⟩
  case hi => rw [State.setHiLo_hi, productHi_eq_word, natCast_signedProduct]
  case lo => rw [State.setHiLo_lo, productLo_eq_word_emod, natCast_signedProduct]

/-- Settles O17: the halves of the unsigned product go to `HI` and `LO`, and the rest is kept. -/
theorem multuWritesUnsignedProduct : Obligations.MultuWritesUnsignedProduct := by
  intro s t S
  refine ⟨_, execMultu_eq s t S, ?hi, ?lo, rfl, setHiLo_setPc_kept S ..⟩
  case hi => rw [State.setHiLo_hi, productHi_eq_word, natCast_unsignedProduct]
  case lo => rw [State.setHiLo_lo, productLo_eq_word_emod, natCast_unsignedProduct]

/-- Settles O18: `HI:LO` is the product modulo 2^64, which loses nothing, and both lower halves are the product of the
two words. -/
theorem productsAreExact : Obligations.ProductsAreExact := by
  intro s t S T U hT hU
  obtain ⟨hThi, hTlo⟩ := hiLo_of_mult hT
  obtain ⟨hUhi, hUlo⟩ := hiLo_of_multu hU
  refine ⟨?signed, ?unsigned, ?sameLo, ?lo⟩
  case signed => rw [hThi, hTlo, productHi_append_productLo, toInt_signedProduct]
  case unsigned => rw [hUhi, hUlo, productHi_append_productLo, toNat_unsignedProduct]
  case sameLo => rw [hTlo, hUlo, productLo_signedProduct, productLo_unsignedProduct]
  case lo => rw [hTlo, productLo_signedProduct, word_uint_mul_uint]

/-- Settles O19: the difference of the upper halves of the two products. -/
theorem hiWordsDifferByOperands : Obligations.HiWordsDifferByOperands := by
  intro s t S T U hT hU
  obtain ⟨hThi, -⟩ := hiLo_of_mult hT
  obtain ⟨hUhi, -⟩ := hiLo_of_multu hU
  rw [hThi, hUhi, productHi_unsignedProduct]

/-- Refutes O20 with vectors M5 and M14: the square of 0x80000000 is 2^62 under both readings, so the two `HI` words are
0x40000000 although bit 31 of the operand is set. -/
theorem not_hiWordsDifferExactlyOnBit31 : ¬ Obligations.HiWordsDifferExactlyOnBit31 := by
  intro h
  have hdiffer := (h 1 1 (State.reset.setReg 1 0x80000000) _ _ (execMult_eq ..) (execMultu_eq ..)).mpr (by decide)
  exact hdiffer (by decide)

/-! ### Variants that raise (42_multiply_divide.md R85 to R88; 43_compare_branch.md R90 to R93) -/

/-- Taking a fault changes the run status only (60_exceptions.md R108). -/
theorem takeFault_sameButStatus (k : Fault) (S : State) : SameButStatus S (takeFault k S) :=
  ⟨rfl, ⟨rfl, rfl⟩, fun _ _ => rfl, fun _ _ => rfl, rfl, rfl⟩

/-- Settles O21: each of the eight variants is executed by taking its fault. -/
theorem unsupportedVariantsFault : Obligations.UnsupportedVariantsFault := by
  intro d s t imm S i hi
  have hexec : exec i S = unsupported i S := by
    fin_cases hi <;> rfl
  rw [hexec]
  exact ⟨_, unsupported_eq i S, takeFault_status .., takeFault_sameButStatus ..⟩

end Sys2Proof.Machine
end

section
/-! PROOFS. Loads and stores (44_load_store.md): the effective address (R94, R95), the words `Lis`, `Lw` and `Sw` move
and their frames (R96 to R98), and a store followed by a load of the same address (R99). -/

namespace Sys2Proof.Machine

variable {S T : State} {t s : Reg} {i : BitVec 16}

/-! ### The effective address -/

/-- Settles O25: the range of the immediate and that of a word, added. -/
theorem effectiveAddressIsIntegerSum : Obligations.EffectiveAddressIsIntegerSum := by
  intro S s i
  have hlow := neg_32768_le_signed16 i
  have hhigh := signed16_le_32767 i
  have hbase := (S.reg s).isLt
  refine ⟨rfl, ?_, ?_⟩ <;>
    · rw [effectiveAddress, uint]
      omega

theorem not_addressInRange {ea : Int} (h : ea < 0 ∨ 2 ^ 32 ≤ ea) : ¬ addressInRange ea := by
  rintro ⟨hlow, hhigh⟩
  omega

/-! ### The three instructions -/

/-- Settles O26: the inline word goes to the destination and the two advances make up 8, or the read raises. -/
theorem lisLoadsInlineWord : Obligations.LisLoadsInlineWord := by
  refine fun d S => ⟨fun v hv => ?present, fun hv => ?absent⟩
  case present =>
    exact ⟨_, execLis_some hv, State.setReg_reg_same .., nextPc_nextPc S.pc,
      setReg_setPc_kept S (nextPc (nextPc S.pc)) d v⟩
  case absent => exact ⟨_, execLis_none hv, takeFault_status .., takeFault_sameButStatus ..⟩

/-- Settles O27: the entry goes to the destination, or the range check or the read raises. -/
theorem lwLoadsEntry : Obligations.LwLoadsEntry := by
  refine fun t s i S => ⟨fun v hlow hhigh hv => ?loaded, fun hout => ?outOfRange, fun hlow hhigh hv => ?absent⟩
  case loaded =>
    exact ⟨_, execLw_some ⟨hlow, hhigh⟩ hv, State.setReg_reg_same .., rfl, setReg_setPc_kept S ..⟩
  case outOfRange =>
    exact ⟨_, execLw_out (not_addressInRange hout), takeFault_status .., takeFault_sameButStatus ..⟩
  case absent =>
    exact ⟨_, execLw_none ⟨hlow, hhigh⟩ hv, takeFault_status .., takeFault_sameButStatus ..⟩

/-- The frame of an instruction that writes the PC and one memory entry. -/
theorem memWrite_setPc_kept (S : State) (pc : Word) (a : Nat) (v : Word) :
    EntriesKept S (memWrite (S.setPc pc) a v) [a] ∧ RegsKept S (memWrite (S.setPc pc) a v) [] ∧
      HiLoKept S (memWrite (S.setPc pc) a v) ∧ StatusKept S (memWrite (S.setPc pc) a v) := by
  refine ⟨fun b hb => ?_, fun _ _ => rfl, ⟨rfl, rfl⟩, rfl, rfl⟩
  rw [memWrite_entry, if_neg (List.ne_of_not_mem_cons hb), State.setPc_entry]

/-- Settles O28: the source goes to the entry under the effective address, or the range check raises. -/
theorem swStoresWord : Obligations.SwStoresWord := by
  refine fun t s i S => ⟨fun hlow hhigh => ?stored, fun hout => ?outOfRange⟩
  case stored =>
    obtain ⟨hentries, hkept⟩ := memWrite_setPc_kept S (nextPc S.pc) (effectiveAddress S s i).toNat (S.reg t)
    refine ⟨_, execSw_in ⟨hlow, hhigh⟩, ?_, hentries, rfl, hkept⟩
    rw [memWrite_entry, if_pos rfl]
  case outOfRange =>
    exact ⟨_, execSw_out (not_addressInRange hout), takeFault_status .., takeFault_sameButStatus ..⟩

/-! ### A store, then a load (44_load_store.md R99) -/

/-- A `Sw` that leaves the block running was in range, and it keeps its own effective address: it writes no register. -/
theorem effectiveAddress_of_sw (h : exec (.sw t s i) S = .next T) (hrun : T.status = .running) :
    addressInRange (effectiveAddress S s i) ∧ effectiveAddress T s i = effectiveAddress S s i := by
  by_cases hr : addressInRange (effectiveAddress S s i)
  · cases h.symm.trans (execSw_in hr)
    exact ⟨hr, rfl⟩
  · cases h.symm.trans (execSw_out hr)
    cases hrun

/-- Settles O29: the load computes the address of the store, which is in range and holds the stored word. -/
theorem storeThenLoadReturnsWord : Obligations.StoreThenLoadReturnsWord := by
  intro S T w v t u s i hw hsw h hrun hv hlw
  obtain ⟨-, hstored⟩ := step_sw_completed hw hsw h hrun
  rw [step_of_fetches hw, hsw] at h
  obtain ⟨hr, hea⟩ := effectiveAddress_of_sw h hrun
  have hword : T.entry (effectiveAddress S s i).toNat = some (S.reg t) :=
    hstored _ (Int.toNat_of_nonneg hr.left).symm
  rw [← hea] at hr hword
  have hload : step T = .next ((T.setPc (nextPc T.pc)).setReg u (S.reg t)) := by
    rw [step_of_fetches hv, hlw]
    exact execLw_some hr hword
  exact ⟨_, hload, hrun, State.setReg_reg_same ..⟩

end Sys2Proof.Machine
end

section
/-! PROOFS. The jumps (45_jump.md): the PC and the link they write and their frames (R103, R104), what a target meets at
the next step (R101), a jump to its own address, and a call with its return (R102). -/

namespace Sys2Proof.Machine

variable {S T : State} {v : Word} {i : Instr} {s : Reg}

/-! ### The two instructions -/

/-- Settles O34: the register's value goes to the PC, and the rest is kept. -/
theorem jrJumpsToRegister : Obligations.JrJumpsToRegister := fun s S =>
  ⟨_, execJr_eq s S, rfl, fun _ _ => rfl, ⟨rfl, rfl⟩, fun _ _ => rfl, rfl, rfl⟩

/-- Settles O35: the target is read in the state of before the link, so register 31 gives its old value. -/
theorem jalrLinksAndJumps : Obligations.JalrLinksAndJumps := fun s S =>
  ⟨_, execJalr_eq s S, rfl, State.setReg_reg_same .., setReg_setPc_kept S (S.reg s) 31 (nextPc S.pc)⟩

/-! ### The step after a jump (45_jump.md R101) -/

/-- Both jumps complete at the register's value and keep what the next fetch reads besides the PC. -/
theorem exec_jump (hi : i = .jr s ∨ i = .jalr s) (S : State) :
    ∃ T, exec i S = .next T ∧ T.pc = S.reg s ∧ EntriesKept S T [] ∧ StatusKept S T := by
  rcases hi with rfl | rfl
  case inl =>
    obtain ⟨T, hT, hpc, -, -, hkept⟩ := jrJumpsToRegister s S
    exact ⟨T, hT, hpc, hkept⟩
  case inr =>
    obtain ⟨T, hT, hpc, -, -, -, hkept⟩ := jalrLinksAndJumps s S
    exact ⟨T, hT, hpc, hkept⟩

/-- Settles O36: the jump checks nothing, and the three outcomes are the frame's own at the target. -/
theorem jumpTargetMeetsNextStep : Obligations.JumpTargetMeetsNextStep := by
  intro s S i hi hrun
  obtain ⟨T, hT, hpc, hentries, hstatus, hcfg⟩ := exec_jump hi S
  obtain ⟨-, hhalts, hmisaligned, habsent, -⟩ := stepFollowsTheFrame T
  have hTrun : T.status = .running := hstatus.trans hrun
  rw [← hpc, ← hcfg, ← hentries _ List.not_mem_nil]
  exact ⟨T, hT, rfl, hhalts hTrun, hmisaligned hTrun, habsent hTrun⟩

/-! ### Jumps that fetch (45_jump.md R102, R103) -/

/-- A fetched `Jr` changes the PC only. -/
theorem step_jr (hv : Fetches S v) (hjr : decode v = .jr s) : step S = .next (S.setPc (S.reg s)) := by
  rw [step_of_fetches hv, hjr]
  exact execJr_eq s S

/-- Settles O37: the jump writes to the PC the value it holds, so one step keeps the state and any number does. -/
theorem jrToItselfNeverEnds : Obligations.JrToItselfNeverEnds := by
  intro S w s n hw hjr hself
  have hstep : step S = .next S := by
    have hjump := step_jr hw hjr
    rwa [hself] at hjump
  exact run_of_step_eq_self (M := Sys2Proof.core) hstep n

/-- Settles O38: the return jumps to the link the call wrote, and changes nothing else. -/
theorem callReturnsAfterTheCall : Obligations.CallReturnsAfterTheCall := by
  intro S T w v s hw hjalr hcall hv hjr
  obtain ⟨T', hT', -, hlink, hregs, hhiLo, hentries, -⟩ := jalrLinksAndJumps s S
  rw [step_of_fetches hw, hjalr, hT'] at hcall
  cases hcall
  have hrun : T.status = .running := hv.left
  exact ⟨_, step_jr hv hjr, hlink, hrun, hregs, hhiLo, hentries⟩

end Sys2Proof.Machine
end

section
/-! PROOFS. An unknown word as an instruction (46_unknown.md R105). -/

namespace Sys2Proof.Machine

/-- Settles O22: `unknown` is executed by taking its fault, and taking a fault changes the run status only. -/
theorem unknownWordFaults : Obligations.UnknownWordFaults := fun w S =>
  ⟨_, execUnknown_eq w S, takeFault_status .., takeFault_sameButStatus ..⟩

end Sys2Proof.Machine
end

section
/-! PROOFS. Exceptions (60_exceptions.md): the fault a step raises and its record (R106, R109), what a faulting step keeps
(R108), where a run halts (R112), and the Trace of a run that faults (70_reset_and_hazards.md R130). -/

namespace Sys2Proof.Machine

variable {S T : State} {w v : Word} {k : Fault}

/-! ### The fault of the fetched word (60_exceptions.md R109 items 3 to 5) -/

theorem decode_eq_unknown_iff : decode w = .unknown v ↔ v = w ∧ firstRow w = none := by
  constructor
  case mp =>
    intro h
    obtain ⟨hencode, hwf⟩ := encodeOfDecode w
    rw [h] at hencode hwf
    have hv : v = w := hencode
    subst hv
    exact ⟨rfl, firstRow_eq_none_iff_recognizedByFields.mpr (by simpa [Instr.wellFormed] using hwf)⟩
  case mpr =>
    rintro ⟨rfl, hnone⟩
    exact decode_of_firstRow_none hnone

/-- The fault computed from the instruction is that of the fetched word: a word is the encoding of what it decodes to
(log entry 15). -/
theorem faultOf_decode (w : Word) (S : State) : faultOf (decode w) S = variantFault S w := by
  obtain ⟨hencode, -⟩ := encodeOfDecode w
  cases hi : decode w with
  | unknown u =>
    obtain ⟨rfl, -⟩ := decode_eq_unknown_iff.mp hi
    simp only [faultOf, variantFault, hi]
  | _ =>
    rw [hi] at hencode
    simp only [faultOf, variantFault, hi, hencode, nextPc, effectiveAddress]

/-- The fault of a word that does not execute names the word, in every state (60_exceptions.md R106). -/
theorem variantFault_of_not_executes (h : executes (decode w) = false) (S : State) :
    variantFault S w = some (if firstRow w = none then .unknownInstruction w else .unsupportedInstruction w) := by
  by_cases hnone : firstRow w = none
  case pos => simp only [variantFault, decode_of_firstRow_none hnone, hnone, if_true]
  case neg =>
    rw [if_neg hnone]
    cases hi : decode w with
    | unknown u => exact absurd (decode_eq_unknown_iff.mp hi).right hnone
    | add | sub | mult | multu | lis | lw | sw | jr | jalr =>
      rw [hi] at h
      cases h
    | _ => simp [variantFault, hi, executes]

/-- Settles O23: the step takes the fault of the fetched word. -/
theorem recordedWordIsTheFetchedOne : Obligations.RecordedWordIsTheFetchedOne := by
  intro S w hw hnot
  rw [step_of_fetches hw, exec_eq_afterExec,
    afterExec_of_fault ((faultOf_decode w S).trans (variantFault_of_not_executes hnot S))]
  rfl

/-! ### The order of the faults (60_exceptions.md R109) -/

theorem expectedFault_of_fetches (hw : Fetches S w) : expectedFault S = variantFault S w := by
  obtain ⟨-, -, haligned, hentry⟩ := hw
  simp only [expectedFault, haligned, hentry, ne_eq, not_true, if_false]

/-- Away from `SENTINEL` a running block takes the first fault of the order, or makes the writes of the word it
fetches when there is none. -/
theorem step_expectedFault_cases (hrun : S.status = .running) (hsentinel : S.pc ≠ S.cfg.sentinel) :
    (∃ k, expectedFault S = some k ∧ step S = .next (takeFault k S)) ∨
      ∃ w, expectedFault S = none ∧ step S = .next ((writesOf (decode w) S).apply S) := by
  by_cases haligned : uint S.pc % 4 = 0
  case neg => exact .inl ⟨_, if_pos haligned, step_done (startStep_misaligned hrun hsentinel haligned)⟩
  case pos =>
    cases hentry : S.entry (uint S.pc) with
    | none =>
      exact .inl ⟨_, by simp only [expectedFault, haligned, hentry, ne_eq, not_true, if_false],
        step_done (startStep_absent hrun hsentinel haligned hentry)⟩
    | some w =>
      have hw : Fetches S w := ⟨hrun, hsentinel, haligned, hentry⟩
      have hstep : step S = .next (afterExec (decode w) S) := (step_of_fetches hw).trans (exec_eq_afterExec _ _)
      have hexpected : expectedFault S = faultOf (decode w) S :=
        (expectedFault_of_fetches hw).trans (faultOf_decode w S).symm
      cases hf : faultOf (decode w) S with
      | some k => exact .inl ⟨k, hexpected.trans hf, afterExec_of_fault hf ▸ hstep⟩
      | none => exact .inr ⟨w, hexpected.trans hf, afterExec_of_noFault hf ▸ hstep⟩

/-- Settles O40: the halt check comes first, and the fault taken elsewhere is the first of the order. -/
theorem faultOrderOfAStep : Obligations.FaultOrderOfAStep := by
  intro S hrun
  by_cases hsentinel : S.pc = S.cfg.sentinel
  case pos => exact ⟨_, step_done (startStep_sentinel hrun hsentinel), (if_pos hsentinel).symm⟩
  case neg =>
    rw [if_neg hsentinel]
    rcases step_expectedFault_cases hrun hsentinel with ⟨k, hk, hstep⟩ | ⟨w, hnone, hstep⟩
    · exact ⟨_, hstep, by rw [hk, takeFault_status]⟩
    · exact ⟨_, hstep, by rw [hnone, Writes.apply_status, hrun]⟩

/-! ### Precise faults (60_exceptions.md R108) and the halt (R112) -/

/-- A step that ends in a fault has done nothing but take it: the writes of a completed step leave the block running. -/
theorem eq_takeFault_of_faulted (h : step S = .next T) (hk : T.status = .faulted k) : T = takeFault k S := by
  rcases step_changes h with ⟨st, rfl⟩ | ⟨w, ⟨hrun, -⟩, -, rfl⟩
  · rw [State.setStatus_status] at hk
    rw [hk, takeFault]
  · rw [Writes.apply_status, hrun] at hk
    cases hk

/-- Settles O39: taking the fault changes the run status only. -/
theorem faultsArePrecise : Obligations.FaultsArePrecise := by
  intro S T k _ h hk
  rw [eq_takeFault_of_faulted h hk]
  exact takeFault_sameButStatus k S

/-- Settles O41: only the halt check answers `Halted`, and a faulting step keeps a PC that is not `SENTINEL`. -/
theorem haltsExactlyAtSentinel : Obligations.HaltsExactlyAtSentinel := by
  intro S T hrun h
  have hhalt : T.status = .halted ↔ S.pc = S.cfg.sentinel := by
    obtain ⟨U, hU, hstatus⟩ := faultOrderOfAStep S hrun
    cases h.symm.trans hU
    rw [hstatus]
    split
    case isTrue hsentinel => exact iff_of_true rfl hsentinel
    case isFalse hsentinel => split <;> exact iff_of_false nofun hsentinel
  refine ⟨hhalt, fun k hk hsentinel => ?_⟩
  rw [eq_takeFault_of_faulted h hk, takeFault_pc, takeFault_cfg] at hsentinel
  cases hk.symm.trans (hhalt.mpr hsentinel)

/-! ### The Trace of a run that faults (70_reset_and_hazards.md R130) -/

/-- The host's loop over `m` steps that return `Continue` away from `SENTINEL`: their states, then the Trace of the rest
of the run. -/
theorem runTraced_add (m n : Nat) (S : State)
    (h : ∀ j < m, (stepsState j S).pc ≠ (stepsState j S).cfg.sentinel ∧ stepOutcome (stepsState j S) = .running) :
    runTraced (m + n) S =
      ((List.range m).map (fun j => snapshot (stepsState j S)) ++ (runTraced n (stepsState m S)).1,
        (runTraced n (stepsState m S)).2) := by
  induction m generalizing S with
  | zero => rw [Nat.zero_add]; rfl
  | succ m ih =>
    obtain ⟨hsentinel, hcontinue⟩ : S.pc ≠ S.cfg.sentinel ∧ stepOutcome S = .running := h 0 m.succ_pos
    have hrest := ih (stepState S) fun j hj => h (j + 1) (Nat.succ_lt_succ hj)
    rw [Nat.succ_add, runTraced, if_neg hsentinel, hcontinue, hrest, List.range_succ_eq_map, List.map_cons, List.map_map]
    rfl

theorem snapshot_stepState_of_faulted (h : stepOutcome S = .faulted k) : snapshot (stepState S) = snapshot S := by
  obtain ⟨T, hT⟩ := stepAlwaysAnswersNext S
  rw [stepOutcome, stepState_eq hT] at h
  rw [stepState_eq hT, eq_takeFault_of_faulted hT h]
  rfl

/-- The host's loop at a step that faults: the state before it, twice. -/
theorem runTraced_of_faulted (n : Nat) (hsentinel : S.pc ≠ S.cfg.sentinel) (h : stepOutcome S = .faulted k) :
    runTraced (n + 1) S = ([snapshot S, snapshot S], .faulted k) := by
  rw [runTraced, if_neg hsentinel, h, snapshot_stepState_of_faulted h]

/-- Settles O59: the steps before the fault give one entry each, and the faulting step two. -/
theorem traceOfAFaultingRun : Obligations.TraceOfAFaultingRun := by
  intro S k limit f hlimit _ hcontinue hsentinel hfault
  obtain ⟨n, rfl⟩ := Nat.exists_eq_add_of_lt hlimit
  have hbefore := runTraced_add k (n + 1) S fun j hj => ⟨hsentinel j hj.le, hcontinue j hj⟩
  rw [Nat.add_assoc, hbefore, runTraced_of_faulted n (hsentinel k le_rfl) hfault, List.range_succ, List.map_append,
    List.append_assoc]
  rfl

end Sys2Proof.Machine
end

section
/-! PROOFS. The parameters (70_reset_and_hazards.md R120) and `LAUNCH` (R121 to R126): the state it leaves, field by
field, and the reset state as one launch. -/

namespace Sys2Proof.Machine

variable {v : Word} {a b : Nat}

/-- Settles O48: a step changes the run status only, or makes the writes of an instruction. -/
theorem parametersAreFixed : Obligations.ParametersAreFixed := fun _ _ => step_keeps_cfg

/-! ### The state a launch leaves -/

theorem launch_of_length_le (S : State) (input1 input2 : Int) {program : List Word}
    (h : program.length ≤ maxProgramWords) :
    launch S input1 input2 program = .next (launchState S.cfg input1 input2 program) := if_pos h

theorem launch_of_lt_length (S : State) (input1 input2 : Int) {program : List Word}
    (h : maxProgramWords < program.length) :
    launch S input1 input2 program = .refused .programTooLong := if_neg (Nat.not_le.mpr h)

/-- The launch values of the registers (70_reset_and_hazards.md R122). -/
theorem launchState_reg (c : Config) (input1 input2 : Int) (program : List Word) (r : Reg) :
    (launchState c input1 input2 program).reg r =
      if r = 31 then c.sentinel else if r = 30 then c.stackTop else if r = 2 then word input2
      else if r = 1 then word input1 else 0 := by
  have hzero {q : Reg} : (Vector.replicate 32 (0 : Word))[q] = 0 := Vector.getElem_replicate ..
  have hwrites : launchState c input1 input2 program =
      (((State.setReg { launchState c input1 input2 program with regs := .replicate 32 0 }
        1 (word input1)).setReg 2 (word input2)).setReg 30 c.stackTop).setReg 31 c.sentinel := rfl
  rw [hwrites]
  simp only [State.setReg_reg]
  simp only [State.reg, hzero]

/-- The cells of a placed program: word `k` under the `k`-th address (70_reset_and_hazards.md R125). -/
theorem mem_placeProgram_iff {ws : List Word} : (b, v) ∈ placeProgram ws a ↔ ∃ k, ws[k]? = some v ∧ b = a + 4 * k := by
  induction ws generalizing a with
  | nil => simp [placeProgram]
  | cons w ws ih =>
    rw [placeProgram, List.mem_cons, ih]
    constructor
    · rintro (h | ⟨k, hk, rfl⟩)
      · cases h
        exact ⟨0, rfl, rfl⟩
      · exact ⟨k + 1, hk, by ring⟩
    · rintro ⟨_ | k, hk, rfl⟩
      · cases hk
        exact .inl rfl
      · exact .inr ⟨k, hk, by ring⟩

/-- The entries after a launch are the program's words. -/
theorem launchState_entry_eq_some_iff {c : Config} {input1 input2 : Int} {program : List Word} :
    (launchState c input1 input2 program).entry a = some v ↔ ∃ k, program[k]? = some v ∧ a = 4 * k := by
  rw [State.entry, launchState, ← Memory.mem_iff_read?_eq_some (placeProgram_sorted program 0), mem_placeProgram_iff]
  simp only [Nat.zero_add]

/-- Settles O51: the launch state by field; an address that is no `4 * k` within the program has no cell. -/
theorem launchSetsEveryField : Obligations.LaunchSetsEveryField := by
  refine fun S input1 input2 program => ⟨fun hlength => ?_, launch_of_lt_length S input1 input2⟩
  refine ⟨_, launch_of_length_le S input1 input2 hlength, launchState_reg .., launchState_reg .., launchState_reg ..,
    launchState_reg .., fun r h1 h2 h30 h31 => ?_, rfl, rfl, rfl, fun k hk => ?_, fun a ha => ?_, rfl, rfl⟩
  · rw [launchState_reg, if_neg h31, if_neg h30, if_neg h2, if_neg h1]
  · exact launchState_entry_eq_some_iff.mpr ⟨k, List.getElem?_eq_getElem hk, rfl⟩
  · refine Option.eq_none_iff_forall_ne_some.mpr fun v hv => ?_
    obtain ⟨k, hk, rfl⟩ := launchState_entry_eq_some_iff.mp hv
    obtain ⟨hlt, -⟩ := List.getElem?_eq_some_iff.mp hk
    exact ha k hlt rfl

/-! ### The reset state -/

/-- Settles O53: with the parameters of the reset state, the two states have the same fields. -/
theorem resetIsTheDefaultLaunch : Obligations.ResetIsTheDefaultLaunch := by
  intro S hcfg
  rw [launch_of_length_le S 1 2 (Nat.zero_le _), hcfg]
  rfl

/-- Settles O50: the reset state is a launch's, and every launch leaves the invariant. -/
theorem resetMeetsInvariant : Obligations.ResetMeetsInvariant :=
  launchMeetsInvariant _ _ _ _ _ (resetIsTheDefaultLaunch State.reset rfl)

end Sys2Proof.Machine
end

section
/-! PROOFS. The Trace of a run that halts, and the step ceiling (70_reset_and_hazards.md R130, R131). -/

namespace Sys2Proof.Machine

variable {S : State}

/-- The host's loop at `SENTINEL`: one entry, whatever the limit. -/
theorem runTraced_of_sentinel (n : Nat) (h : S.pc = S.cfg.sentinel) : runTraced n S = ([snapshot S], .halted) := by
  cases n <;> rw [runTraced, if_pos h]

/-- The host's loop with no step left. -/
theorem runTraced_zero (h : S.pc ≠ S.cfg.sentinel) : runTraced 0 S = ([snapshot S], .stepLimitExceeded) := by
  rw [runTraced, if_neg h]

/-- A run of `k` steps that returned `Continue`, which then ends with one entry more: the Trace is its `k + 1` states, in
order. -/
theorem runTraced_of_last {k n : Nat} {e : RunEnd}
    (h : ∀ j < k, (stepsState j S).pc ≠ (stepsState j S).cfg.sentinel ∧ stepOutcome (stepsState j S) = .running)
    (hlast : runTraced n (stepsState k S) = ([snapshot (stepsState k S)], e)) :
    runTraced (k + n) S = ((List.range (k + 1)).map (fun j => snapshot (stepsState j S)), e) := by
  rw [runTraced_add k n S h, hlast, List.range_succ, List.map_append]
  rfl

/-- Settles O58: the run ends at the entry of the state at `SENTINEL`. -/
theorem traceOfAHaltingRun : Obligations.TraceOfAHaltingRun := by
  intro S k limit hlimit hcontinue hsentinel
  obtain ⟨n, rfl⟩ := Nat.exists_eq_add_of_le hlimit
  exact runTraced_of_last hcontinue (runTraced_of_sentinel n hsentinel)

/-- One step after `k` steps. -/
theorem stepsState_succ (k : Nat) (S : State) : stepsState (k + 1) S = stepState (stepsState k S) := by
  induction k generalizing S with
  | zero => rfl
  | succ k ih => exact ih (stepState S)

/-- A block whose steps all returned `Continue` is `Running` (40_execution_cycle.md R67). -/
theorem stepsState_running (hrun : S.status = .running) {n : Nat}
    (h : ∀ j < n, stepOutcome (stepsState j S) = .running) : (stepsState n S).status = .running := by
  cases n with
  | zero => exact hrun
  | succ n =>
    rw [stepsState_succ]
    exact h n n.lt_succ_self

/-- Settles O60: the limit is used up at the entry of the last state. -/
theorem stepLimitStopsTheHost : Obligations.StepLimitStopsTheHost := by
  intro S limit hrun hsentinel hcontinue
  exact ⟨runTraced_of_last (fun j hj => ⟨hsentinel j hj.le, hcontinue j hj⟩) (runTraced_zero (hsentinel limit le_rfl)),
    stepsState_running hrun hcontinue⟩

end Sys2Proof.Machine
end

section
/-! PROOFS. The program text (70_reset_and_hazards.md R129). -/

namespace Sys2Proof.Machine

variable {item rest first : List Char} {others items : List (List Char)}

/-! ### Splitting -/

/-- A character that is no comma belongs to the first item. -/
theorem splitItems_cons {c : Char} (hc : c ≠ ',') (h : splitItems rest = first :: others) :
    splitItems (c :: rest) = (c :: first) :: others := by
  rw [splitItems, h]
  exact fun _ hcomma _ => hc hcomma

/-- A text with no comma, put in front, belongs to the first item. -/
theorem splitItems_append (hitem : ',' ∉ item) (h : splitItems rest = first :: others) :
    splitItems (item ++ rest) = (item ++ first) :: others := by
  induction item with
  | nil => exact h
  | cons c item ih =>
    obtain ⟨hc, hitem⟩ := List.ne_and_not_mem_of_not_mem_cons hitem
    exact splitItems_cons hc.symm (ih hitem)

theorem splitItems_single (hitem : ',' ∉ item) : splitItems item = [item] := by
  simpa using splitItems_append hitem (rest := []) rfl

theorem splitItems_append_separator (hitem : ',' ∉ item) :
    splitItems (item ++ ',' :: ' ' :: rest) = item :: splitItems rest := by
  simpa using splitItems_append hitem (rest := ',' :: ' ' :: rest) rfl

/-- Items with no comma are read back from their separated list. -/
theorem splitItems_intercalate (hne : items ≠ []) (h : ∀ item ∈ items, ',' ∉ item) :
    splitItems (List.intercalate [',', ' '] items) = items := by
  induction items with
  | nil => exact absurd rfl hne
  | cons item items ih =>
    obtain ⟨hitem, hitems⟩ := List.forall_mem_cons.mp h
    cases items with
    | nil => rw [List.intercalate_singleton, splitItems_single hitem]
    | cons next items =>
      rw [List.intercalate_cons_cons, List.append_assoc]
      exact (splitItems_append_separator hitem).trans (congrArg _ (ih (List.cons_ne_nil _ _) hitems))

theorem comma_not_mem_encodeWord (w : Word) : ',' ∉ encodeWord w := fun h => by
  obtain ⟨-, hchars⟩ := encodeBits_isBitString (uint w) 32
  exact absurd (hchars _ h) (by decide)

/-! ### Reading the items -/

/-- The word an item of the text spells, if it is well formed. -/
def readItem (item : List Char) : Option Word := (decodeUnsigned item).map fun n => word n

theorem parseProgram_eq (text : List Char) :
    parseProgram text = (splitItems (text.filter fun c => !isLineBreak c)).mapM readItem := rfl

theorem readItem_encodeWord (w : Word) : readItem (encodeWord w) = some w := by
  have hbits : IsBitString 32 (encodeWord w) := encodeBits_isBitString (uint w) 32
  rw [readItem, decodeUnsigned_of_isBitString hbits, encodeWord, bitsValue_encodeBits_natCast w.isLt]
  exact congrArg some (word_uint w)

theorem mapM_readItem_encodeWord (ws : List Word) : (ws.map encodeWord).mapM readItem = some ws := by
  rw [List.mapM_map]
  have hsome : readItem ∘ encodeWord = some := funext readItem_encodeWord
  rw [hsome]
  exact (List.mapM_pure (m := Option) (f := id)).trans (congrArg some ws.map_id)

/-- One item without a word refuses the whole list. -/
theorem mapM_readItem_eq_none (hmem : item ∈ items) (h : readItem item = none) : items.mapM readItem = none := by
  obtain ⟨before, after, rfl⟩ := List.append_of_mem hmem
  rw [List.mapM_append, List.mapM_cons, h]
  cases before.mapM readItem <;> rfl

/-- Settles O54: the text splits into its items, since none holds a comma, and each item is read on its own. -/
theorem programTextReadsBack : Obligations.ProgramTextReadsBack := by
  refine ⟨fun ws text hne htext => ?_, fun S input1 input2 text item hmem hmalformed => ?_⟩
  · have hnoComma : ∀ item ∈ ws.map encodeWord, ',' ∉ item :=
      List.forall_mem_map.mpr fun w _ => comma_not_mem_encodeWord w
    rw [parseProgram_eq, htext, splitItems_intercalate (mt List.map_eq_nil_iff.mp hne) hnoComma,
      mapM_readItem_encodeWord]
  · have hitem : readItem item = none := by
      rw [readItem, decodeUnsigned_of_not_isBitString hmalformed]
      rfl
    have hparse : parseProgram text = none := mapM_readItem_eq_none hmem hitem
    rw [launchText, hparse]

end Sys2Proof.Machine
end
